-- ==== Sys2Proof/Word.lean ====
section
/-! DEFINITION. The word types of HUFB, one name for each width the spec gives (00_scope.md R7, R8;
10_state.md R20; 30_encoding.md R81, R87). Bit 0 is the least significant bit of every word and every
number is unsigned (R9). -/

namespace Sys2Proof

/-- SYM_W = 8: a Symbol, one of 256 byte values (R7). -/
abbrev Symbol := BitVec 8

/-- COUNT_W = 32: an occurrence count (R7, R21). -/
abbrev Count := BitVec 32

/-- WEIGHT_W = 40: the weight of a node (R8). -/
abbrev Weight := BitVec 40

/-- IDX_W = 9: a node index, 0 to 510; 511 names no node (R8, R23). -/
abbrev NodeIdx := BitVec 9

/-- LEN_W = 8: a code length (R8). -/
abbrev CodeLen := BitVec 8

/-- CBITS_W = 256: a code, left-justified (R8, R26). -/
abbrev CodeBits := BitVec 256

/-- BITPOS_W = 48: the bit cursor (R8). -/
abbrev BitPos := BitVec 48

/-- ECNT and TOTAL, 40 bits: a number of Symbols (R33, R34). -/
abbrev SymCount := BitVec 40

/-- CMD_W = 48: a command word (R8, R81). -/
abbrev CmdWord := BitVec 48

/-- RESP_W = 64: a response word (R8, R87). -/
abbrev RespWord := BitVec 64

/-- The data field of a response, 48 bits (R87). -/
abbrev RespData := BitVec 48

end Sys2Proof
end

