-- ==== Sys2Proof/Syntax.lean ====
section
/-! DEFINITION. The commands of HUFB, one constructor for each row of the opcode map (30_encoding.md R83), with the
operands that the row's format carries, each at its own width and in assembler order (R82, R84, R92). -/

namespace Sys2Proof

inductive Instr where
  /-- `NOP` (R200). -/
  | nop
  /-- `CLR` (R201). -/
  | clr
  /-- `LDF s, count` (R110). -/
  | ldf (s : Symbol) (count : Count)
  /-- `RDF s` (R111). -/
  | rdf (s : Symbol)
  /-- `BUILD` (R125). -/
  | build
  /-- `RDN sel, idx` (R131). -/
  | rdn (sel : BitVec 8) (idx : NodeIdx)
  /-- `GEN` (R153). -/
  | gen
  /-- `RDCL s` (R157). -/
  | rdcl (s : Symbol)
  /-- `RDCW s, w` (R158). -/
  | rdcw (s : Symbol) (w : BitVec 3)
  /-- `DSTART` (R171). -/
  | dstart
  /-- `DBIT v`: `v` is a code point; 0 and 1 are the bits (R174, R90). -/
  | dbit (v : BitVec 8)
  /-- `DBYTE x`: one packed byte of the body (R176). -/
  | dbyte (x : BitVec 8)
  /-- `DEND` (R177). -/
  | dend
  /-- `RDS sel` (R202). -/
  | rds (sel : BitVec 8)
  deriving DecidableEq, Repr

end Sys2Proof
end

