-- ==== Sys2Proof/Decode.lean ====
section
/-! DEFINITION. From a 48-bit command word to a command, or a rejection by name, and back (30_encoding.md R81 to
R86). A word is one unit of the command port: it is stored nowhere and has no byte order (20_memory.md R64). -/

namespace Sys2Proof

/-! ### The fields of a command word (R81) -/

/-- `op`, CW[47:44]. -/
def opField (cw : CmdWord) : BitVec 4 := cw.extractLsb' 44 4

/-- `rsv`, CW[43:40]. -/
def rsvField (cw : CmdWord) : BitVec 4 := cw.extractLsb' 40 4

/-- `a`, CW[39:32]. -/
def aField (cw : CmdWord) : BitVec 8 := cw.extractLsb' 32 8

/-- `d`, CW[31:0]. -/
def dField (cw : CmdWord) : BitVec 32 := cw.extractLsb' 0 32

/-- `idx`, CW[8:0], the node index of format AI (R84). -/
def idxField (cw : CmdWord) : NodeIdx := cw.extractLsb' 0 9

/-- `w`, CW[2:0], the word index of format AW (R84). -/
def wField (cw : CmdWord) : BitVec 3 := cw.extractLsb' 0 3

/-- Why a word spells no command: the three grounds of R85. -/
inductive Reject where
  /-- `op` is 0xE or 0xF. -/
  | reservedOpcode
  /-- `rsv` is not 0. -/
  | reservedBits
  /-- A must-be-zero operand bit of the format is 1 (R82). -/
  | operandBits
  deriving DecidableEq, Repr

/-! ### The five formats (R82): the operands, when every bit the format does not use is 0 -/

def formatN (cw : CmdWord) (i : Instr) : Except Reject Instr :=
  if aField cw = 0 ∧ dField cw = 0 then .ok i else .error .operandBits

def formatA (cw : CmdWord) (mk : BitVec 8 → Instr) : Except Reject Instr :=
  if dField cw = 0 then .ok (mk (aField cw)) else .error .operandBits

def formatAD (cw : CmdWord) (mk : BitVec 8 → BitVec 32 → Instr) : Except Reject Instr :=
  .ok (mk (aField cw) (dField cw))

/-- `d[31:9]` must be 0. -/
def formatAI (cw : CmdWord) (mk : BitVec 8 → NodeIdx → Instr) : Except Reject Instr :=
  if (dField cw).extractLsb' 9 23 = 0 then .ok (mk (aField cw) (idxField cw)) else .error .operandBits

/-- `d[31:3]` must be 0. -/
def formatAW (cw : CmdWord) (mk : BitVec 8 → BitVec 3 → Instr) : Except Reject Instr :=
  if (dField cw).extractLsb' 3 29 = 0 then .ok (mk (aField cw) (wField cw)) else .error .operandBits

/-- `op` alone selects the format and the command (R83, R86). -/
def decodeOp (cw : CmdWord) : Except Reject Instr :=
  match (opField cw).toNat with
  | 0x0 => formatN cw .nop
  | 0x1 => formatN cw .clr
  | 0x2 => formatAD cw .ldf
  | 0x3 => formatA cw .rdf
  | 0x4 => formatN cw .build
  | 0x5 => formatAI cw .rdn
  | 0x6 => formatN cw .gen
  | 0x7 => formatA cw .rdcl
  | 0x8 => formatAW cw .rdcw
  | 0x9 => formatN cw .dstart
  | 0xA => formatA cw .dbit
  | 0xB => formatA cw .dbyte
  | 0xC => formatN cw .dend
  | 0xD => formatA cw .rds
  | _ => .error .reservedOpcode

/-- The decoder: total on the 2^48 words (R85, R91 check 1). -/
def decode (cw : CmdWord) : Except Reject Instr :=
  if rsvField cw = 0 then decodeOp cw else .error .reservedBits

/-! ### The encoder (R92) -/

/-- `op << 44 | a << 32 | d`, with `rsv` 0 (R81, R92). -/
def cmdWord (op : BitVec 4) (a : BitVec 8) (d : BitVec 32) : CmdWord :=
  op ++ (0#4 ++ (a ++ d))

def encode : Instr → CmdWord
  | .nop => cmdWord 0x0 0 0
  | .clr => cmdWord 0x1 0 0
  | .ldf s count => cmdWord 0x2 s count
  | .rdf s => cmdWord 0x3 s 0
  | .build => cmdWord 0x4 0 0
  | .rdn sel idx => cmdWord 0x5 sel (idx.setWidth 32)
  | .gen => cmdWord 0x6 0 0
  | .rdcl s => cmdWord 0x7 s 0
  | .rdcw s w => cmdWord 0x8 s (w.setWidth 32)
  | .dstart => cmdWord 0x9 0 0
  | .dbit v => cmdWord 0xA v 0
  | .dbyte x => cmdWord 0xB x 0
  | .dend => cmdWord 0xC 0 0
  | .rds sel => cmdWord 0xD sel 0

/-! ### The opcode map as the spec prints it (R83) -/

/-- One row: the words `cw` with `cw & mask = match` spell the command. -/
structure OpcodeRow where
  mnemonic : String
  mask : CmdWord
  pattern : CmdWord
  deriving DecidableEq, Repr

/-- `cw & mask = match`. -/
def OpcodeRow.matchesWord (r : OpcodeRow) (cw : CmdWord) : Bool := cw &&& r.mask == r.pattern

/-- The fourteen rows of R83. -/
def opcodeMap : List OpcodeRow :=
  [⟨"NOP", 0xFFFFFFFFFFFF, 0x000000000000⟩, ⟨"CLR", 0xFFFFFFFFFFFF, 0x100000000000⟩,
   ⟨"LDF", 0xFF0000000000, 0x200000000000⟩, ⟨"RDF", 0xFF00FFFFFFFF, 0x300000000000⟩,
   ⟨"BUILD", 0xFFFFFFFFFFFF, 0x400000000000⟩, ⟨"RDN", 0xFF00FFFFFE00, 0x500000000000⟩,
   ⟨"GEN", 0xFFFFFFFFFFFF, 0x600000000000⟩, ⟨"RDCL", 0xFF00FFFFFFFF, 0x700000000000⟩,
   ⟨"RDCW", 0xFF00FFFFFFF8, 0x800000000000⟩, ⟨"DSTART", 0xFFFFFFFFFFFF, 0x900000000000⟩,
   ⟨"DBIT", 0xFF00FFFFFFFF, 0xA00000000000⟩, ⟨"DBYTE", 0xFF00FFFFFFFF, 0xB00000000000⟩,
   ⟨"DEND", 0xFFFFFFFFFFFF, 0xC00000000000⟩, ⟨"RDS", 0xFF00FFFFFFFF, 0xD00000000000⟩]

/-- The row's mnemonic of each command. -/
def Instr.mnemonic : Instr → String
  | .nop => "NOP"
  | .clr => "CLR"
  | .ldf _ _ => "LDF"
  | .rdf _ => "RDF"
  | .build => "BUILD"
  | .rdn _ _ => "RDN"
  | .gen => "GEN"
  | .rdcl _ => "RDCL"
  | .rdcw _ _ => "RDCW"
  | .dstart => "DSTART"
  | .dbit _ => "DBIT"
  | .dbyte _ => "DBYTE"
  | .dend => "DEND"
  | .rds _ => "RDS"

/-- The command that the opcode table's word `w` of `nbits` bits decodes to: a command is ONE 48-bit word, so the
table's numbering is the command word's own. -/
def decodeTableWord (nbits w : Nat) : Option Instr :=
  if nbits ≤ 48 then (decode (BitVec.ofNat 48 (w % 2 ^ nbits))).toOption else none

end Sys2Proof
end

