-- ==== Sys2Proof/Config.lean ====
section
/-! DEFINITION. The parameters that the spec fixes for HUFB (00_scope.md R7, R8). None of them is configurable,
and the block has no free value (R12, 93_implementation_defined.md), so no constant here is left without a
body. The one open parameter the spec names, HDR_COUNT_BYTE_ORDER, belongs to the host's header parser and no
rule of the block reads it (20_memory.md R64). -/

namespace Sys2Proof.Config

/-- NLEAF: one leaf for every Symbol (R7). -/
abbrev nLeaf : Nat := 256

/-- NSTEP: the number of combination steps of BUILD (R7, R126). -/
abbrev nStep : Nat := 255

/-- NNODE: 256 leaves and 255 internal nodes, indices 0 to 510 (R8). -/
abbrev nNode : Nat := 511

/-- ROOT: the node made by the last combination step (R8, R23). -/
def root : NodeIdx := 510

/-- The greatest number of edges on a path from the root (R159). -/
abbrev maxCodeLen : Nat := 255

end Sys2Proof.Config
end

