-- ==== Sys2Proof/Machine/State.lean ====
section
/-! DEFINITION. The state of HUFB, all of 10_state.md R20, with the two streams and the command port that the
block meets its host through (20_memory.md R60, 30_encoding.md R80), and the state after reset (R42). -/

namespace Sys2Proof.Machine

/-- The decoder's states (R30). -/
inductive DState where
  | atRoot
  | atInternal
  | done
  | corrupt
  deriving DecidableEq, Repr

/-- Why the decoder is in CORRUPT (R35). -/
inductive Cause where
  /-- NONE: the decoder is not in CORRUPT. -/
  | none
  /-- TRUNC_MID_CODE: end of stream in AT_INTERNAL. -/
  | truncMidCode
  /-- TRUNC_AT_ROOT: end of stream in AT_ROOT with Symbols owed. -/
  | truncAtRoot
  /-- INVALID_BIT: a bit value other than 0 or 1. -/
  | invalidBit
  deriving DecidableEq, Repr

/-- One entry of the node arena: the entries of W, L, R, LEAF and SYM at one node index (R22). -/
structure Node where
  w : Weight
  l : NodeIdx
  r : NodeIdx
  leaf : Bool
  sym : Symbol
  deriving DecidableEq, Repr

/-- The arrays W, L, R, LEAF, SYM. An entry that is `none` is unspecified: it holds no value (R42). -/
abbrev Arena := Vector (Option Node) Config.nNode

/-- The array INQ, the content of the priority queue (R24); `none` is unspecified (R42). -/
abbrev QueueBits := Vector (Option Bool) Config.nNode

/-- What the host, or the reset signal, presents to the block (R80, R240). -/
inductive HostInput where
  /-- A command word on the command port. -/
  | command (cw : CmdWord)
  /-- The hardware reset signal, between two commands. -/
  | reset
  deriving DecidableEq, Repr

structure State where
  /-- TV, tree valid (R27). -/
  tv : Bool
  /-- CV, codes valid (R28). -/
  cv : Bool
  /-- DEN, decoder enabled (R29). -/
  den : Bool
  /-- DSTATE (R30). -/
  dstate : DState
  /-- CUR, the tree cursor (R31). -/
  cur : NodeIdx
  /-- BITPOS, the bit cursor (R32). -/
  bitpos : BitPos
  /-- ECNT, Symbols emitted in this decode (R33). -/
  ecnt : SymCount
  /-- TOTAL, the declared number of Symbols (R34). -/
  total : SymCount
  /-- CAUSE (R35). -/
  cause : Cause
  /-- FREQ, the FrequencyTable (R21). -/
  freq : Vector Count Config.nLeaf
  /-- W, L, R, LEAF, SYM (R22). -/
  arena : Arena
  /-- INQ (R24). -/
  inq : QueueBits
  /-- CLEN (R26). -/
  clen : Vector (Option CodeLen) Config.nLeaf
  /-- CBITS (R26). -/
  cbits : Vector (Option CodeBits) Config.nLeaf
  /-- What the host has yet to present, first input first: the world's, not the block's. -/
  inputs : List HostInput
  /-- The response words given since the model's start, oldest first (R12, R87). -/
  responses : List RespWord
  /-- OUT, the Symbols emitted since the model's start, oldest first (R36). -/
  out : List Symbol
  deriving DecidableEq, Repr

/-- The cases the spec calls stuck: it shows them unreachable and gives them no value
(93_implementation_defined.md U2, U5, U13). Each stop is safe, and none is reached from reset. -/
inductive Fault where
  /-- A node was read whose entry is unspecified, or node index 511 (R27, R23). Raised by RDN, DSTART, GEN, DBIT
  and DBYTE through `nodeAt`. Safe. -/
  | unspecifiedNode
  /-- A code-table entry was read that is unspecified (R28). Raised by RDCL and RDCW. Safe. -/
  | unspecifiedCode
  /-- A bit was presented while the cursor stood on a node without children (U5, N12), or GEN met a root that is
  a leaf (U2, R156). Raised by DBIT, DBYTE and GEN. Safe. -/
  | childlessNode
  /-- VISIT went more than 255 edges below the root (R159). Raised by GEN. Safe. -/
  | tooDeep
  deriving DecidableEq, Repr

/-- Why an instruction is given no meaning. No arm of `exec` uses it: every command of the map is modelled. -/
inductive Refusal where
  /-- An instruction not modelled yet, by its mnemonic. Raised by `exec`'s refused arms only; there is none. Safe. -/
  | notModelled (mnemonic : String)
  deriving DecidableEq, Repr

/-- The state after reset (R42): FREQ all zero, the flags and decoder registers at their initial values, the arena,
INQ and the code table unspecified. No input is pending, no response has been given, OUT is empty (R36). -/
def State.reset : State where
  freq := Vector.replicate _ 0
  arena := Vector.replicate _ none
  inq := Vector.replicate _ none
  clen := Vector.replicate _ none
  cbits := Vector.replicate _ none
  tv := false
  cv := false
  den := false
  dstate := .atRoot
  cur := Config.root
  bitpos := 0
  ecnt := 0
  total := 0
  cause := .none
  inputs := []
  responses := []
  out := []

end Sys2Proof.Machine
end

