-- ==== Sys2Proof/Machine/Flags.lean ====
section
/-! DEFINITION. The flags, what is computed from them, and the status view (10_state.md R27 to R30, R35, R38, R40,
R43). HUFB has no arithmetic condition codes: TV, CV and DEN are its only flags (R29). -/

namespace Sys2Proof.Machine

/-- The encoding of DSTATE (R30). -/
def DState.code : DState → BitVec 2
  | .atRoot => 0
  | .atInternal => 1
  | .done => 2
  | .corrupt => 3

/-- The encoding of CAUSE (R35). -/
def Cause.code : Cause → BitVec 2
  | .none => 0
  | .truncMidCode => 1
  | .truncAtRoot => 2
  | .invalidBit => 3

/-- A decode has been started and has neither finished nor failed (R38). -/
def State.active (s : State) : Bool :=
  s.den && (s.dstate == .atRoot || s.dstate == .atInternal)

/-- The level output `done` (R43). -/
def State.doneOut (s : State) : Bool := s.den && s.dstate == .done

/-- The level output `corrupt` (R43). -/
def State.corruptOut (s : State) : Bool := s.den && s.dstate == .corrupt

/-- The flags word of the status view: CUR [15:7], CAUSE [6:5], CV [4], TV [3], DEN [2], DSTATE [1:0] (R40). -/
def State.flagsWord (s : State) : RespData :=
  (s.cur ++ (s.cause.code ++ (BitVec.ofBool s.cv ++ (BitVec.ofBool s.tv ++
    (BitVec.ofBool s.den ++ s.dstate.code))))).setWidth 48

/-- A write to FREQ makes the tree and the code table stale (R27, R28, R70). -/
def State.clearValid (s : State) : State := { s with tv := false, cv := false }

end Sys2Proof.Machine
end

