-- ==== Sys2Proof/Machine/Operands.lean ====
section
/-! DEFINITION. The operand forms: what a selector, an index, a code point or a body byte stands for (30_encoding.md
R84, R89, R90; 20_memory.md R62, R65), and the read words that RDN and RDCW assemble. -/

namespace Sys2Proof.Machine

/-- RDN's selector and index name something: `sel <= 1` and `idx != 511` (R89). -/
def rdnInRange (sel : BitVec 8) (idx : NodeIdx) : Bool :=
  sel.toNat ≤ 1 && idx != 511

/-- RDS's selector names a word of the status view: `sel <= 3` (R89). -/
def rdsInRange (sel : BitVec 8) : Bool :=
  sel.toNat ≤ 3

/-- DBIT's operand as a code point: 0x00 is bit 0, 0x01 is bit 1, every other value is an invalid bit (R90). -/
def bitValue (v : BitVec 8) : Option Bool :=
  if v = 0 then some false else if v = 1 then some true else none

/-- The bits of a packed byte, most significant first (R62). -/
def byteBits (x : BitVec 8) : List Bool :=
  [x.getLsbD 7, x.getLsbD 6, x.getLsbD 5, x.getLsbD 4, x.getLsbD 3, x.getLsbD 2, x.getLsbD 1, x.getLsbD 0]

/-- A code left-justified in 256 bits: bit `255 - i` is path bit `i`, the other bits are 0 (R26). -/
def codeBits (path : List Bool) : CodeBits :=
  (BitVec.ofBoolListBE path).setWidth 256 <<< (256 - path.length)

/-- A code's length as CLEN holds it (R26). -/
def codeLen (path : List Bool) : CodeLen := BitVec.ofNat 8 path.length

/-- RDN's structure word: LEAF [26], SYM [25:18], L [17:9], R [8:0] (R131). -/
def Node.structureWord (nd : Node) : RespData :=
  (BitVec.ofBool nd.leaf ++ (nd.sym ++ (nd.l ++ nd.r))).setWidth 48

/-- RDCW's slice, CBITS[s][255 - 32w : 224 - 32w] (R158). -/
def codeSlice (bits : CodeBits) (w : BitVec 3) : BitVec 32 :=
  bits.extractLsb' (224 - 32 * w.toNat) 32

end Sys2Proof.Machine
end

