-- ==== Sys2Proof/Machine/Ops.lean ====
section
/-! DEFINITION. The operations the commands share: responding, reading and writing the arrays, emitting a Symbol, the
CORRUPT entry and the ways out of it (30_encoding.md R87, R88; 60_exceptions.md R216, R217; 70_reset_and_hazards.md
R240). -/

namespace Sys2Proof.Machine

/-! ### Responses -/

/-- The status of a response (R88). -/
inductive Status where
  | ok
  | errIllegal
  | errSeq
  | errBusy
  | errRange
  | errCorrupt
  deriving DecidableEq, Repr

/-- The status codes (R88). -/
def Status.code : Status → BitVec 4
  | .ok => 0
  | .errIllegal => 1
  | .errSeq => 2
  | .errBusy => 3
  | .errRange => 4
  | .errCorrupt => 5

/-- The response word: `st` [63:60], `ne` [59:56], zero [55:48], `data` [47:0] (R87). -/
def respWord (st : Status) (ne : Nat) (data : RespData) : RespWord :=
  st.code ++ (BitVec.ofNat 4 ne ++ (0#8 ++ data))

/-- `respond(st, data)`, for a command that made `ne` emissions (R11, R87). -/
def respond (st : Status) (ne : Nat) (data : RespData) (s : State) : State :=
  { s with responses := s.responses ++ [respWord st ne data] }

/-- End a command that emitted nothing with a status and data 0; the state is otherwise as given. -/
def answer (st : Status) (s : State) : Host.Outcome State Fault Refusal :=
  .next (respond st 0 0 s)

/-- End a reading command with status OK and its data. -/
def answerData (data : RespData) (s : State) : Host.Outcome State Fault Refusal :=
  .next (respond .ok 0 data s)

/-- An illegal word: ERR_ILLEGAL, data 0, `ne` 0, no state changed (R85). -/
def answerIllegal (s : State) : State := respond .errIllegal 0 0 s

/-! ### The arrays (R60, R61: whole entries) -/

/-- `FREQ[c]`. -/
def State.freqAt (s : State) (c : Symbol) : Count := s.freq[c.toNat]'c.isLt

/-- `FREQ[c] <- v`. -/
def State.setFreq (s : State) (c : Symbol) (v : Count) : State :=
  { s with freq := s.freq.set c.toNat v c.isLt }

/-- The entries of W, L, R, LEAF, SYM at node `n`. An unspecified entry, and index 511, give no value (R23, R27). -/
def nodeAt (a : Arena) (n : NodeIdx) : Except Fault Node :=
  match a[n.toNat]? with
  | some (some nd) => .ok nd
  | _ => .error .unspecifiedNode

/-- `CLEN[c]`. -/
def State.clenAt (s : State) (c : Symbol) : Except Fault CodeLen :=
  match s.clen[c.toNat]'c.isLt with
  | some len => .ok len
  | none => .error .unspecifiedCode

/-- `CBITS[c]`. -/
def State.cbitsAt (s : State) (c : Symbol) : Except Fault CodeBits :=
  match s.cbits[c.toNat]'c.isLt with
  | some bits => .ok bits
  | none => .error .unspecifiedCode

/-! ### The symbol output -/

/-- `emit(c)`: append the Symbol to OUT (R11, R36). -/
def State.emit (s : State) (c : Symbol) : State := { s with out := s.out ++ [c] }

/-! ### The CORRUPT entry and the ways out of it -/

/-- `raise Corrupt(c)`: DSTATE and CAUSE are written, everything else is kept, the answer is ERR_CORRUPT (R216). -/
def raiseCorrupt (c : Cause) (s : State) : State :=
  respond .errCorrupt 0 0 { s with dstate := .corrupt, cause := c }

/-- Arm the decoder for a decode of `total` Symbols: at the root with the bit cursor at 0, or in DONE at once when
nothing is to be decoded (R171, R172). This, CLR and reset are the ways out of CORRUPT (R217). -/
def armDecoder (total : SymCount) (s : State) : State :=
  { s with
    den := true
    total := total
    ecnt := 0
    bitpos := 0
    cur := Config.root
    cause := .none
    dstate := if total = 0 then .done else .atRoot }

/-- The block in its reset state (R42). What has already left the block, OUT and the responses, and what the host has
yet to present are not the block's state (R36, R201). -/
def blockReset (s : State) : State :=
  { State.reset with inputs := s.inputs, responses := s.responses, out := s.out }

/-! ### The command port -/

/-- The next input, and the state once it has been taken; `none` when the host presents nothing (R80). -/
def takeInput (s : State) : Option (HostInput × State) :=
  match s.inputs with
  | [] => none
  | i :: rest => some (i, { s with inputs := rest })

/-- The host presents one more command word ahead of what it has yet to present (R80). -/
def presentNext (cw : CmdWord) (s : State) : State :=
  { s with inputs := .command cw :: s.inputs }

end Sys2Proof.Machine
end

