-- ==== Sys2Proof/Machine/CodeTable.lean ====
section
/-! DEFINITION. The Code Table Generator: VISIT, and the commands GEN, RDCL, RDCW (42_code_table_generator.md). -/

namespace Sys2Proof.Machine

/-- VISIT(n, depth), as the list of the leaves it records in the order it meets them, left before right, each Symbol
with its path (R151). `fuel` is the number of nodes a path may still pass through. -/
def visit (a : Arena) : Nat → NodeIdx → List Bool → Except Fault (List (Symbol × List Bool))
  | 0, _, _ => .error .tooDeep
  | fuel + 1, n, path =>
    match nodeAt a n with
    | .error e => .error e
    | .ok nd =>
      if nd.leaf then .ok [(nd.sym, path)]
      else
        match visit a fuel nd.l (path ++ [false]), visit a fuel nd.r (path ++ [true]) with
        | .ok left, .ok right => .ok (left ++ right)
        | .error e, _ => .error e
        | _, .error e => .error e

/-- VISIT(510, 0). A path has at most 255 edges (R159); a root that is a leaf has no meaning (R156). -/
def visitTree (a : Arena) : Except Fault (List (Symbol × List Bool)) :=
  match nodeAt a Config.root with
  | .error e => .error e
  | .ok nd => if nd.leaf then .error .childlessNode else visit a (Config.maxCodeLen + 1) Config.root []

/-- `CLEN[c] <- len(path)` for each recorded leaf, in order (R151). -/
def recordLens (codes : List (Symbol × List Bool)) (t : Vector (Option CodeLen) Config.nLeaf) :
    Vector (Option CodeLen) Config.nLeaf :=
  codes.foldl (fun t e => t.set e.1.toNat (some (codeLen e.2)) e.1.isLt) t

/-- `CBITS[c] <- path`, left-justified, for each recorded leaf, in order (R151). -/
def recordBits (codes : List (Symbol × List Bool)) (t : Vector (Option CodeBits) Config.nLeaf) :
    Vector (Option CodeBits) Config.nLeaf :=
  codes.foldl (fun t e => t.set e.1.toNat (some (codeBits e.2)) e.1.isLt) t

/-- Every recorded leaf's entries of CLEN and CBITS are written, and CV is set (R151, R153, R28). -/
def State.installCodes (s : State) (codes : List (Symbol × List Bool)) : State :=
  { s with clen := recordLens codes s.clen, cbits := recordBits codes s.cbits, cv := true }

/-- GEN (R153). -/
def execGen (s : State) : Host.Outcome State Fault Refusal :=
  if s.tv then
    match visitTree s.arena with
    | .ok codes => answer .ok (s.installCodes codes)
    | .error e => .fault e
  else answer .errSeq s

/-- RDCL (R157). -/
def execRdcl (c : Symbol) (s : State) : Host.Outcome State Fault Refusal :=
  if s.cv then
    match s.clenAt c with
    | .ok len => answerData (len.setWidth 48) s
    | .error e => .fault e
  else answer .errSeq s

/-- RDCW (R158). -/
def execRdcw (c : Symbol) (w : BitVec 3) (s : State) : Host.Outcome State Fault Refusal :=
  if s.cv then
    match s.cbitsAt c with
    | .ok bits => answerData ((codeSlice bits w).setWidth 48) s
    | .error e => .fault e
  else answer .errSeq s

end Sys2Proof.Machine
end

