-- ==== Sys2Proof/Machine/Control.lean ====
section
/-! DEFINITION. The control commands NOP, CLR, RDS (44_control.md). -/

namespace Sys2Proof.Machine

/-- NOP (R200). -/
def execNop (s : State) : Host.Outcome State Fault Refusal := answer .ok s

/-- CLR: the block in its reset state, in every state, never refused (R201). -/
def execClr (s : State) : Host.Outcome State Fault Refusal := answer .ok (blockReset s)

/-- The word of the status view under a selector (R40, R202). -/
def statusView (s : State) (sel : BitVec 8) : RespData :=
  match sel.toNat with
  | 0 => s.flagsWord
  | 1 => s.ecnt.setWidth 48
  | 2 => s.total.setWidth 48
  | _ => s.bitpos

/-- RDS (R202). -/
def execRds (sel : BitVec 8) (s : State) : Host.Outcome State Fault Refusal :=
  if rdsInRange sel then answerData (statusView s sel) s else answer .errRange s

end Sys2Proof.Machine
end

