-- ==== Sys2Proof/Machine/Decoder.lean ====
section
/-! DEFINITION. The Decoder state machine: STEP, and the commands DSTART, DBIT, DBYTE, DEND (43_decoder.md). -/

namespace Sys2Proof.Machine

/-- What STEP does once the bit has led to the node `n`: at a leaf the Symbol is emitted and the cursor goes back to the
root, else the cursor moves (R173). -/
def arrive (n : NodeIdx) (nd : Node) (s : State) : State :=
  if nd.leaf then
    { s.emit nd.sym with
      bitpos := s.bitpos + 1
      ecnt := s.ecnt + 1
      cur := Config.root
      dstate := if s.ecnt + 1 = s.total then .done else .atRoot }
  else
    { s with bitpos := s.bitpos + 1, cur := n, dstate := .atInternal }

/-- STEP(v): one valid bit while active, left on 0 and right on 1 (R173). Beside the state it gives the number of
Symbols emitted. A cursor on a node without children is stuck (U5). -/
def stepBit (v : Bool) (s : State) : Except Fault (State × Nat) :=
  match nodeAt s.arena s.cur with
  | .error e => .error e
  | .ok here =>
    if here.leaf then .error .childlessNode
    else
      let n := if v then here.r else here.l
      match nodeAt s.arena n with
      | .error e => .error e
      | .ok nd => .ok (arrive n nd s, if nd.leaf then 1 else 0)

/-- A run of valid bits, first bit first; the bits after DONE are skipped (R176, R178). -/
def stepBits : List Bool → State → Except Fault (State × Nat)
  | [], s => .ok (s, 0)
  | b :: bs, s =>
    if s.dstate = .done then stepBits bs s
    else
      match stepBit b s with
      | .error e => .error e
      | .ok (s1, k) =>
        match stepBits bs s1 with
        | .error e => .error e
        | .ok (s2, m) => .ok (s2, k + m)

/-- End a command that presented bits: OK, with `ne` the number of Symbols emitted (R174, R176). -/
def answerBits : Except Fault (State × Nat) → Host.Outcome State Fault Refusal
  | .ok (s, ne) => .next (respond .ok ne 0 s)
  | .error e => .fault e

/-- DSTART: accepted in every decoder state (R171). -/
def execDstart (s : State) : Host.Outcome State Fault Refusal :=
  if s.tv then
    match nodeAt s.arena Config.root with
    | .ok root => answer .ok (armDecoder root.w s)
    | .error e => .fault e
  else answer .errSeq s

/-- DBIT: in DONE ignored and not examined, in CORRUPT refused, else a bit is stepped and any other code point is the
CORRUPT entry with cause INVALID_BIT (R174, R175). -/
def execDbit (v : BitVec 8) (s : State) : Host.Outcome State Fault Refusal :=
  if s.den then
    match s.dstate with
    | .done => answer .ok s
    | .corrupt => answer .errCorrupt s
    | .atRoot | .atInternal =>
      match bitValue v with
      | some b => answerBits (stepBit b s)
      | none => .next (raiseCorrupt .invalidBit s)
  else answer .errSeq s

/-- DBYTE: the eight bits of a body byte, most significant first (R176). -/
def execDbyte (x : BitVec 8) (s : State) : Host.Outcome State Fault Refusal :=
  if s.den then
    if s.dstate = .corrupt then answer .errCorrupt s else answerBits (stepBits (byteBits x) s)
  else answer .errSeq s

/-- DEND: the body has no more bits (R177). -/
def execDend (s : State) : Host.Outcome State Fault Refusal :=
  if s.den then
    match s.dstate with
    | .done => answer .ok s
    | .corrupt => answer .errCorrupt s
    | .atInternal => .next (raiseCorrupt .truncMidCode s)
    | .atRoot => .next (raiseCorrupt .truncAtRoot s)
  else answer .errSeq s

end Sys2Proof.Machine
end

