-- ==== Sys2Proof/Machine/FrequencyTable.lean ====
section
/-! DEFINITION. The frequency-table commands LDF, RDF (40_frequency_table.md). -/

namespace Sys2Proof.Machine

/-- LDF: refused while a decode is active, else the count is written and the tree and code table become stale (R110). -/
def execLdf (c : Symbol) (count : Count) (s : State) : Host.Outcome State Fault Refusal :=
  if s.active then answer .errBusy s else answer .ok (s.setFreq c count).clearValid

/-- RDF (R111). -/
def execRdf (c : Symbol) (s : State) : Host.Outcome State Fault Refusal :=
  answerData ((s.freqAt c).setWidth 48) s

end Sys2Proof.Machine
end

