-- ==== Sys2Proof/Machine/TreeBuilder.lean ====
section
/-! DEFINITION. The Tree Builder: the priority queue, INIT, COMBINE, and the commands BUILD and RDN (41_tree_builder.md). -/

namespace Sys2Proof.Machine

/-! ### The priority queue (R120, R121) -/

/-- The arena and the queue that BUILD works on. -/
structure Forest where
  arena : Arena
  inq : QueueBits
  deriving DecidableEq, Repr

/-- An entry of the queue: a node index and the weight of the sub-tree rooted there. -/
structure QueueEntry where
  w : Weight
  n : Nat
  deriving DecidableEq, Repr

/-- `key(a) < key(b)`: by weight as an unsigned number, then by index (R121). -/
def keyLt (a b : QueueEntry) : Bool :=
  a.w.toNat < b.w.toNat || (a.w.toNat == b.w.toNat && a.n < b.n)

/-- The queue's entry at node `n`: there is one iff `INQ[n] = 1` (R24). -/
def Forest.entryAt (f : Forest) (n : Nat) : Option QueueEntry :=
  match f.inq[n]?, f.arena[n]? with
  | some (some true), some (some nd) => some ⟨nd.w, n⟩
  | _, _ => none

/-- The entries of the queue, in ascending index (R24). -/
def Forest.queue (f : Forest) : List QueueEntry :=
  (List.range Config.nNode).filterMap f.entryAt

/-- The entry of least key. -/
def leastKey : List QueueEntry → Option QueueEntry
  | [] => none
  | e :: es =>
    match leastKey es with
    | none => some e
    | some m => if keyLt m e then some m else some e

/-- `peekMin()`: `none` on an empty queue (R120). -/
def Forest.peekMin (f : Forest) : Option QueueEntry := leastKey f.queue

/-- `INQ[n] <- b`. -/
def Forest.setInq (f : Forest) (n : Nat) (b : Bool) : Forest :=
  { f with inq := f.inq.setIfInBounds n (some b) }

/-- `removeMin()`: the least entry and the queue without it; `none` on an empty queue (R120). -/
def Forest.removeMin (f : Forest) : Option (QueueEntry × Forest) :=
  match f.peekMin with
  | none => none
  | some m => some (m, f.setInq m.n false)

/-- `insert(n)` of a node whose entries are being written (R120, R123). -/
def Forest.insertNode (f : Forest) (n : Nat) (nd : Node) : Forest :=
  { f with arena := f.arena.setIfInBounds n (some nd) }.setInq n true

/-! ### INIT and COMBINE -/

/-- The leaf of Symbol `c` (R22, R23, R122). -/
def leafNode (c : Nat) (count : Count) : Node :=
  { w := count.setWidth 40, l := 0, r := 0, leaf := true, sym := BitVec.ofNat 8 c }

/-- The internal node over `x`, removed first and so the left child, and `y`, removed second (R123, R124). -/
def internalNode (x y : QueueEntry) : Node :=
  { w := x.w + y.w, l := BitVec.ofNat 9 x.n, r := BitVec.ofNat 9 y.n, leaf := false, sym := 0 }

/-- INIT: 256 leaves, all in the queue; the entries of nodes 256 to 510 are not written yet (R122). -/
def initForest (freq : Vector Count Config.nLeaf) : Forest where
  arena := Vector.ofFn fun n => if h : n.val < 256 then some (leafNode n.val freq[n.val]) else none
  inq := Vector.ofFn fun n => some (n.val < 256)

/-- COMBINE(k). Both removals find an entry (R123): on a queue that held fewer than two entries, which never happens,
the forest would be left as it is and node `256 + k` without a value. -/
def combine (f : Forest) (k : Nat) : Forest :=
  match f.removeMin with
  | none => f
  | some (x, f1) =>
    match f1.removeMin with
    | none => f
    | some (y, f2) => f2.insertNode (256 + k) (internalNode x y)

/-- INIT, then COMBINE(0), ..., COMBINE(k - 1). -/
def buildSteps (freq : Vector Count Config.nLeaf) : Nat → Forest
  | 0 => initForest freq
  | k + 1 => combine (buildSteps freq k) k

/-- INIT and all 255 combination steps (R125, R126). Irreducible, so that no proof runs it by unfolding. -/
@[irreducible] def buildForest (freq : Vector Count Config.nLeaf) : Forest := buildSteps freq Config.nStep

/-! ### BUILD and RDN -/

/-- The arena and queue are those of `f`: the tree is valid, the code table stale (R125, R27, R28). -/
def State.installForest (s : State) (f : Forest) : State :=
  { s with arena := f.arena, inq := f.inq, tv := true, cv := false }

/-- BUILD: refused while a decode is active, else the whole arena and queue are rebuilt from FREQ (R125). -/
def execBuild (s : State) : Host.Outcome State Fault Refusal :=
  if s.active then answer .errBusy s else answer .ok (s.installForest (buildForest s.freq))

/-- What RDN returns of a node: the structure word, or the weight (R131). -/
def nodeData (sel : BitVec 8) (nd : Node) : RespData :=
  if sel = 0 then nd.structureWord else nd.w.setWidth 48

/-- RDN: range, then TV, then the node (R131). -/
def execRdn (sel : BitVec 8) (idx : NodeIdx) (s : State) : Host.Outcome State Fault Refusal :=
  if rdnInRange sel idx then
    if s.tv then
      match nodeAt s.arena idx with
      | .ok nd => answerData (nodeData sel nd) s
      | .error e => .fault e
    else answer .errSeq s
  else answer .errRange s

end Sys2Proof.Machine
end

