-- ==== Sys2Proof/Machine/Dispatch.lean ====
section
/-! DEFINITION. One arm for each command of the opcode map (30_encoding.md R83). -/

namespace Sys2Proof.Machine

def exec (i : Instr) (s : State) : Host.Outcome State Fault Refusal :=
  match i with
  | .nop => Sys2Proof.Machine.execNop s
  | .clr => Sys2Proof.Machine.execClr s
  | .ldf c count => Sys2Proof.Machine.execLdf c count s
  | .rdf c => Sys2Proof.Machine.execRdf c s
  | .build => Sys2Proof.Machine.execBuild s
  | .rdn sel idx => Sys2Proof.Machine.execRdn sel idx s
  | .gen => Sys2Proof.Machine.execGen s
  | .rdcl c => Sys2Proof.Machine.execRdcl c s
  | .rdcw c w => Sys2Proof.Machine.execRdcw c w s
  | .dstart => Sys2Proof.Machine.execDstart s
  | .dbit v => Sys2Proof.Machine.execDbit v s
  | .dbyte x => Sys2Proof.Machine.execDbyte x s
  | .dend => Sys2Proof.Machine.execDend s
  | .rds sel => Sys2Proof.Machine.execRds sel s

end Sys2Proof.Machine
end

