-- ==== Sys2Proof/Machine/Step.lean ====
section
/-! DEFINITION. One step: the block takes the host's next input and executes it to completion (20_memory.md R68,
30_encoding.md R80, R91). Between commands it is idle and holds its state (60_exceptions.md R224). -/

namespace Sys2Proof.Machine

def step (s : State) : Host.Outcome State Fault Refusal :=
  match takeInput s with
  | none => .next s
  | some (.reset, s1) => .next (blockReset s1)
  | some (.command cw, s1) =>
    match decode cw with
    | .ok i => exec i s1
    | .error _ => .next (answerIllegal s1)

/-- The host presents the opcode table's word `w` as its next command. -/
def State.withFetchWord (s : State) (nbits w : Nat) : State :=
  presentNext (BitVec.ofNat 48 (w % 2 ^ nbits)) s

end Sys2Proof.Machine
end

