-- ==== Sys2Proof/WellFormed.lean ====
section
/-! DEFINITION. Which commands are well formed. The operand widths of `Instr` already rule out every must-be-zero
violation (30_encoding.md R82), so each `Instr` has a legal word. What is left to check of an operand without
looking at the state is that it names something (R89): an ill-formed command is a legal word that the block
answers with ERR_RANGE. -/

namespace Sys2Proof

/-- RDN's selector is 0 or 1 and its index names a node (R89, R65). -/
def rdnNames (sel : BitVec 8) (idx : NodeIdx) : Bool :=
  sel.toNat ≤ 1 && idx.toNat < 511

/-- RDS's selector is 0 to 3 (R89, R40). -/
def rdsNames (sel : BitVec 8) : Bool :=
  sel.toNat ≤ 3

/-- Every selector and index of the command names something (R89). -/
def Instr.wellFormed : Instr → Bool
  | .rdn sel idx => rdnNames sel idx
  | .rds sel => rdsNames sel
  | .nop => true
  | .clr => true
  | .ldf _ _ => true
  | .rdf _ => true
  | .build => true
  | .gen => true
  | .rdcl _ => true
  | .rdcw _ _ => true
  | .dstart => true
  | .dbit _ => true
  | .dbyte _ => true
  | .dend => true

/-- A well-formed command. -/
abbrev Instr.WellFormed (i : Instr) : Prop := i.wellFormed = true

end Sys2Proof
end

