-- ==== Sys2Proof/Safety.lean ====
section
/-! DEFINITION. The notions that claims about HUFB are stated in: paths in the tree, the strict binary tree of
41_tree_builder.md R127, the invariants of 10_state.md R39, and runs of commands. -/

namespace Sys2Proof.Machine

/-! ### Responses as words -/

/-- The same state with one more response given: what a command leaves that does nothing else. -/
def State.addResponse (s : State) (rw : RespWord) : State := { s with responses := s.responses ++ [rw] }

/-- `st`, RW[63:60] (R87). -/
def stField (rw : RespWord) : BitVec 4 := rw.extractLsb' 60 4

/-- `ne`, RW[59:56] (R87). -/
def neField (rw : RespWord) : BitVec 4 := rw.extractLsb' 56 4

/-- RW[55:48], always 0 (R87). -/
def zeroField (rw : RespWord) : BitVec 8 := rw.extractLsb' 48 8

/-- `data`, RW[47:0] (R87). -/
def dataField (rw : RespWord) : RespData := rw.extractLsb' 0 48

/-! ### Paths (42_code_table_generator.md R150) -/

/-- The node reached from `n` along a path, left on 0 and right on 1; `none` where the path leaves the tree. -/
def walk (a : Arena) : NodeIdx → List Bool → Option NodeIdx
  | n, [] => some n
  | n, b :: bs =>
    match nodeAt a n with
    | .ok nd => if nd.leaf then none else walk a (if b then nd.r else nd.l) bs
    | .error _ => none

/-- The leaf of Symbol `c` is node `c` (R23). -/
def leafIdx (c : Symbol) : NodeIdx := c.setWidth 9

/-- `p` is `code(c)`, the path from the root to the leaf of `c` (R150). -/
def IsCode (a : Arena) (c : Symbol) (p : List Bool) : Prop := walk a Config.root p = some (leafIdx c)

/-- CLEN and CBITS hold `p` as the code of `c`: the length, and path bit `i` in bit `255 - i` with zeros after (R26). -/
def TableHolds (s : State) (c : Symbol) (p : List Bool) : Prop :=
  ∃ len bits, s.clenAt c = .ok len ∧ s.cbitsAt c = .ok bits ∧ len.toNat = p.length ∧
    ∀ i < 256, bits.getLsbD (255 - i) = p.getD i false

/-! ### The strict binary tree (R127) -/

/-- `c` is a child of the internal node `p`. -/
def IsChild (a : Arena) (p c : NodeIdx) : Prop :=
  ∃ nd, nodeAt a p = .ok nd ∧ nd.leaf = false ∧ (nd.l = c ∨ nd.r = c)

/-- The arena is a strict binary tree rooted at 510 whose leaves are nodes 0 to 255, one for each Symbol, and whose
internal nodes weigh what their two children weigh together (R22, R23, R127). -/
structure StrictTree (a : Arena) : Prop where
  leaves : ∀ c : Symbol, ∃ nd, nodeAt a (leafIdx c) = .ok nd ∧ nd.leaf = true ∧ nd.sym = c ∧ nd.l = 0 ∧ nd.r = 0
  internals : ∀ n : NodeIdx, 256 ≤ n.toNat → n.toNat ≤ 510 →
    ∃ nd x y, nodeAt a n = .ok nd ∧ nodeAt a nd.l = .ok x ∧ nodeAt a nd.r = .ok y ∧ nd.leaf = false ∧ nd.sym = 0 ∧
      nd.l ≠ nd.r ∧ nd.l.toNat < n.toNat ∧ nd.r.toNat < n.toNat ∧ nd.w.toNat = x.w.toNat + y.w.toNat
  parents : ∀ n : NodeIdx, n.toNat < 510 → ∃ p, IsChild a p n ∧ ∀ q, IsChild a q n → q = p
  rootFree : ∀ p, ¬ IsChild a p Config.root

/-- The sum of the 256 counts. -/
def freqSum (freq : Vector Count Config.nLeaf) : Nat := ((List.finRange 256).map fun c => freq[c].toNat).sum

/-- The sum of the 256 counts is the weight of the root (R127). -/
def RootWeighs (a : Arena) (total : Nat) : Prop := ∃ nd, nodeAt a Config.root = .ok nd ∧ nd.w.toNat = total

/-- Node `n`, of weight `w`, is an entry of the queue (R24). -/
def Queued (f : Forest) (n : NodeIdx) (w : Weight) : Prop :=
  f.inq[n.toNat]? = some (some true) ∧ ∃ nd, nodeAt f.arena n = .ok nd ∧ nd.w = w

/-- `key(a) < key(b)` on the pairs `(W[n], n)` (R121). -/
def KeyLess (wa : Weight) (a : NodeIdx) (wb : Weight) (b : NodeIdx) : Prop :=
  wa.toNat < wb.toNat ∨ (wa = wb ∧ a.toNat < b.toNat)

/-! ### The invariants (R39) -/

/-- The nine invariants of 10_state.md R39, in its order, and what rules R27, R28, R31, R33, R34 and R183 say beside them. -/
structure Inv (s : State) : Prop where
  codesNeedTree : s.cv = true → s.tv = true
  activeNeedsTree : s.active = true → s.tv = true
  activeCursor : s.active = true →
    (∃ nd, nodeAt s.arena s.cur = .ok nd ∧ nd.leaf = false) ∧ s.ecnt.toNat < s.total.toNat ∧ s.cause = .none
  atRoot : s.den = true → s.dstate = .atRoot → s.cur = Config.root
  atInternal : s.den = true → s.dstate = .atInternal → 256 ≤ s.cur.toNat ∧ s.cur.toNat ≤ 509
  doneState : s.den = true → s.dstate = .done → s.ecnt = s.total ∧ s.cur = Config.root ∧ s.cause = .none
  corruptCause : (s.den = true ∧ s.dstate = .corrupt) ↔ s.cause ≠ .none
  notEnabled : s.den = false → s.dstate = .atRoot ∧ s.cur = Config.root ∧ s.bitpos = 0 ∧ s.ecnt = 0 ∧ s.total = 0 ∧
    s.cause = .none
  strictTree : s.tv = true → StrictTree s.arena
  bitsCoverSymbols : s.den = true → s.ecnt.toNat ≤ s.bitpos.toNat
  /-- TV: the arena and queue are what BUILD gives for the present FREQ (R27). -/
  treeOfFreq : s.tv = true → s.arena = (buildForest s.freq).arena ∧ s.inq = (buildForest s.freq).inq
  /-- CV: the code table holds the codes of the present tree (R28, R154). -/
  codesOfTree : s.cv = true → ∀ c, ∃ p, IsCode s.arena c p ∧ TableHolds s c p
  /-- TOTAL is the weight of the root, the sum of the counts (R34). -/
  totalOfTree : s.active = true → RootWeighs s.arena s.total.toNat
  /-- CUR is never a leaf and never 511 (R31). -/
  cursorInternal : 256 ≤ s.cur.toNat ∧ s.cur.toNat ≤ 510
  /-- A Symbol costs at most 255 bits (R159, R183); a node's depth is at most its distance from index 510. -/
  bitsBounded : s.den = true → s.bitpos.toNat ≤ 255 * s.ecnt.toNat + (510 - s.cur.toNat)
  /-- ECNT reaches TOTAL only in DONE (R33, R183). -/
  symbolsBounded : s.den = true → s.ecnt.toNat < s.total.toNat ∨ (s.dstate = .done ∧ s.ecnt = s.total)

/-! ### Runs -/

/-- Commands one after another, each to completion (R68). -/
def execAll : List Instr → State → Host.Outcome State Fault Refusal
  | [], s => .next s
  | i :: is, s =>
    match exec i s with
    | .next t => execAll is t
    | .fault e => .fault e
    | .refused e => .refused e

/-- The body bits that a decoder command presents (R62, R90); `none` for a command that presents none, or a code point
that is no bit. -/
def presentedBits : Instr → Option (List Bool)
  | .dbit v => (bitValue v).map fun b => [b]
  | .dbyte x => some (byteBits x)
  | _ => none

/-- The concatenation of the bits that a list of decoder commands presents. -/
def bodyBits : List Instr → Option (List Bool)
  | [] => some []
  | i :: is =>
    match presentedBits i, bodyBits is with
    | some b, some bs => some (b ++ bs)
    | _, _ => none

/-- The decoder commands that present bits or end the stream (43_decoder.md). -/
def presentsBody : Instr → Prop
  | .dbit _ => True
  | .dbyte _ => True
  | .dend => True
  | _ => False

/-- The reading commands (R66). -/
def isRead : Instr → Prop
  | .rdf _ => True
  | .rdn _ _ => True
  | .rdcl _ => True
  | .rdcw _ _ => True
  | .rds _ => True
  | _ => False

/-- The host's next input is a command word that spells `i`. -/
def NextCommandIs (s : State) (i : Instr) : Prop := ∃ cw rest, s.inputs = .command cw :: rest ∧ decode cw = .ok i

/-- The host's next input is the hardware reset. -/
def NextIsReset (s : State) : Prop := ∃ rest, s.inputs = .reset :: rest

/-- `B` is the body of the Symbol sequence: the concatenation of the Symbols' codes (R63, R182). -/
inductive IsBody (a : Arena) : List Symbol → List Bool → Prop where
  | nil : IsBody a [] []
  | cons {c : Symbol} {p : List Bool} {cs : List Symbol} {bs : List Bool} (code : IsCode a c p) (rest : IsBody a cs bs) :
      IsBody a (c :: cs) (p ++ bs)

/-- FREQ holds the byte counts of the sequence (R112, R182). -/
def CountsOf (freq : Vector Count Config.nLeaf) (cs : List Symbol) : Prop :=
  ∀ c : Symbol, (freq[c.toNat]'c.isLt).toNat = cs.count c

end Sys2Proof.Machine
end

