-- ==== Sys2Proof/Certificates/Slice0/Obligations.lean ====
section
/-! DEFINITION. The statements about HUFB that the provers are to settle. A statement that ends in an equation of states
says the frame with it: a field that the equation does not name is as it was before. -/

open Sys2Proof Sys2Proof.Machine

/-! ### Encoding and the step -/

/-- Words written out from the formats and opcodes of 30_encoding.md R81 to R83 decode to their commands, and words that
V9 of 95_test_vectors.md lists as illegal are rejected on the ground that R85 gives. -/
def Obligations.SpecWordsDecode : Prop :=
  decode 0x204100000005 = .ok (.ldf 65 5) ∧ decode 0x400000000000 = .ok .build ∧
  decode 0x5001000001FE = .ok (.rdn 1 510) ∧ decode 0x600000000000 = .ok .gen ∧
  decode 0x804300000007 = .ok (.rdcw 67 7) ∧ decode 0xA03000000000 = .ok (.dbit 0x30) ∧
  decode 0xB0F600000000 = .ok (.dbyte 0xF6) ∧ decode 0xD00300000000 = .ok (.rds 3) ∧
  decode 0xE00000000000 = .error .reservedOpcode ∧ decode 0x2F0100000001 = .error .reservedBits ∧
  decode 0x800000000008 = .error .operandBits ∧ decode 0x500000000200 = .error .operandBits

/-- Every command, with every operand, is read back from its word (R82, R83, R84, R92). -/
def Obligations.DecodeOfEncodeIsTheCommand : Prop := ∀ i : Instr, decode (encode i) = .ok i

/-- A word that decodes is the encoding of what it decodes to: no bit of it is dropped (R82, R85). -/
def Obligations.EncodeOfDecodeIsTheWord : Prop := ∀ cw i, decode cw = .ok i → encode i = cw

/-- R83: a word spells a command iff `CW & mask = match` for its row, and no word matches two rows. -/
def Obligations.WordSpellsACommandIffItsRowMatches : Prop :=
  (∀ cw i, decode cw = .ok i → ∃ r ∈ opcodeMap, r.mnemonic = i.mnemonic ∧ cw &&& r.mask = r.pattern) ∧
  (∀ cw, ∀ r ∈ opcodeMap, cw &&& r.mask = r.pattern → ∃ i, decode cw = .ok i ∧ i.mnemonic = r.mnemonic) ∧
  ∀ cw, ∀ r ∈ opcodeMap, ∀ q ∈ opcodeMap, cw &&& r.mask = r.pattern → cw &&& q.mask = q.pattern → r = q

/-- A step executes the command that the word at the head of the port spells, the word being taken (R68, R80). -/
def Obligations.StepRunsTheDecodedCommand : Prop :=
  ∀ (s : State) (cw : CmdWord) (rest : List HostInput) (i : Instr),
    s.inputs = .command cw :: rest → decode cw = .ok i → step s = exec i { s with inputs := rest }

/-- The opcode table's word, presented as the next command, is run by the very next step. That the host presents words
through `State.inputs` is the model's own form (log entry 5). -/
def Obligations.FetchWordIsRunNext : Prop :=
  ∀ (s : State) (w : Nat) (i : Instr), w < 2 ^ 48 → decodeTableWord 48 w = some i → step (s.withFetchWord 48 w) = exec i s

/-- R92: the word of each command, as a number: `op << 44 | a << 32 | d`, with the operands where R82 puts them. -/
def Obligations.EncodingsAreTheSpecs : Prop :=
  ∀ (a : BitVec 8) (count : Count) (idx : NodeIdx) (w : BitVec 3),
    (encode .nop).toNat = 0x0 * 2 ^ 44 ∧ (encode .clr).toNat = 0x1 * 2 ^ 44 ∧
    (encode (.ldf a count)).toNat = 0x2 * 2 ^ 44 + a.toNat * 2 ^ 32 + count.toNat ∧
    (encode (.rdf a)).toNat = 0x3 * 2 ^ 44 + a.toNat * 2 ^ 32 ∧ (encode .build).toNat = 0x4 * 2 ^ 44 ∧
    (encode (.rdn a idx)).toNat = 0x5 * 2 ^ 44 + a.toNat * 2 ^ 32 + idx.toNat ∧ (encode .gen).toNat = 0x6 * 2 ^ 44 ∧
    (encode (.rdcl a)).toNat = 0x7 * 2 ^ 44 + a.toNat * 2 ^ 32 ∧
    (encode (.rdcw a w)).toNat = 0x8 * 2 ^ 44 + a.toNat * 2 ^ 32 + w.toNat ∧ (encode .dstart).toNat = 0x9 * 2 ^ 44 ∧
    (encode (.dbit a)).toNat = 0xA * 2 ^ 44 + a.toNat * 2 ^ 32 ∧ (encode (.dbyte a)).toNat = 0xB * 2 ^ 44 + a.toNat * 2 ^ 32 ∧
    (encode .dend).toNat = 0xC * 2 ^ 44 ∧ (encode (.rds a)).toNat = 0xD * 2 ^ 44 + a.toNat * 2 ^ 32

/-- R85: a word matches no row iff `op` is 0xE or 0xF, or `rsv` is not 0, or a must-be-zero operand bit of its format (R82)
is 1; such a word is answered with ERR_ILLEGAL, data 0, `ne` 0, and changes no state. -/
def Obligations.IllegalWordIsAnsweredAndChangesNothing : Prop :=
  (∀ cw : CmdWord, (∀ r ∈ opcodeMap, cw &&& r.mask ≠ r.pattern) ↔
    (0xE ≤ (opField cw).toNat ∨ rsvField cw ≠ 0 ∨
      (opField cw ∈ [0x0, 0x1, 0x4, 0x6, 0x9, 0xC] ∧ (aField cw ≠ 0 ∨ dField cw ≠ 0)) ∨
      (opField cw ∈ [0x3, 0x7, 0xA, 0xB, 0xD] ∧ dField cw ≠ 0) ∨
      (opField cw = 0x5 ∧ 2 ^ 9 ≤ (dField cw).toNat) ∨ (opField cw = 0x8 ∧ 2 ^ 3 ≤ (dField cw).toNat))) ∧
  ∀ (s : State) (cw : CmdWord) (rest : List HostInput), s.inputs = .command cw :: rest →
    (∀ r ∈ opcodeMap, cw &&& r.mask ≠ r.pattern) →
    step s = .next (State.addResponse { s with inputs := rest } 0x1000000000000000)

/-- Between commands the block is idle and holds its state (R224); hardware reset leaves the block in the one reset state
(R240, R241), and OUT as it was (R36); that the responses and what is still to be presented are kept, and that the reset is
a step of its own, is the model's choice (log entries 3 and 4). -/
def Obligations.IdleHoldsAndResetResets : Prop :=
  (∀ s : State, s.inputs = [] → step s = .next s) ∧
  ∀ (s : State) (rest : List HostInput), s.inputs = .reset :: rest →
    step s = .next { State.reset with inputs := rest, responses := s.responses, out := s.out }

/-- R87: the fields of a response word, for each of the six statuses of R88 and the codes R88 gives them. -/
def Obligations.ResponseWordLayout : Prop :=
  (∀ (st : Status) (ne : Nat) (data : RespData), ne ≤ 8 →
    stField (respWord st ne data) = st.code ∧ (neField (respWord st ne data)).toNat = ne ∧
    zeroField (respWord st ne data) = 0 ∧ dataField (respWord st ne data) = data) ∧
  Status.ok.code = 0 ∧ Status.errIllegal.code = 1 ∧ Status.errSeq.code = 2 ∧ Status.errBusy.code = 3 ∧
  Status.errRange.code = 4 ∧ Status.errCorrupt.code = 5

/-! ### The frequency table -/

/-- R110: LDF is refused with ERR_BUSY and no effect while a decode is active; else it writes the one count and clears TV
and CV, whatever the old count was. -/
def Obligations.LdfWritesOneCount : Prop :=
  ∀ (c : Symbol) (count : Count) (s : State),
    (s.active = true → exec (.ldf c count) s = .next (s.addResponse 0x3000000000000000)) ∧
    (s.active = false → ∃ t, exec (.ldf c count) s = .next t ∧
      (∀ d, t.freqAt d = if d = c then count else s.freqAt d) ∧
      t = { s with freq := t.freq, tv := false, cv := false, responses := s.responses ++ [0] })

/-- R111: RDF returns `zext_48(FREQ[s])` with status OK, in every state, and changes nothing. -/
def Obligations.RdfReturnsTheCount : Prop :=
  ∀ (c : Symbol) (s : State), exec (.rdf c) s = .next (s.addResponse ((s.freqAt c).setWidth 64))

/-! ### The Tree Builder -/

/-- R122: INIT makes the 256 leaves and puts them in the queue; no other node is in it. -/
def Obligations.InitMakesTheLeaves : Prop :=
  ∀ freq : Vector Count Config.nLeaf,
    (∀ c : Symbol, nodeAt (buildSteps freq 0).arena (leafIdx c) =
      .ok { w := (freq[c.toNat]'c.isLt).setWidth 40, l := 0, r := 0, leaf := true, sym := c }) ∧
    ∀ n : NodeIdx, n.toNat ≤ 510 → (buildSteps freq 0).inq[n.toNat]? = some (some (decide (n.toNat < 256)))

/-- R123: before step `k` the queue holds `256 - k` entries; COMBINE(k) removes the entry `x` of least key and then the entry
`y` of least key among the rest, writes the new node `256 + k` over the two, `x` to the left (R124), and inserts it; every
other node and queue bit is as before. -/
def Obligations.CombineJoinsTheTwoLeastKeys : Prop :=
  ∀ (freq : Vector Count Config.nLeaf) (k : Nat), k < 255 → (buildSteps freq k).queue.length = 256 - k ∧
    ∃ (x y : NodeIdx) (wx wy : Weight),
      Queued (buildSteps freq k) x wx ∧ Queued (buildSteps freq k) y wy ∧ KeyLess wx x wy y ∧
      (∀ n w, Queued (buildSteps freq k) n w → n ≠ x → n ≠ y → KeyLess wy y w n) ∧
      nodeAt (buildSteps freq (k + 1)).arena (BitVec.ofNat 9 (256 + k)) =
        .ok { w := wx + wy, l := x, r := y, leaf := false, sym := 0 } ∧
      (∀ n : NodeIdx, n.toNat ≠ 256 + k →
        nodeAt (buildSteps freq (k + 1)).arena n = nodeAt (buildSteps freq k).arena n) ∧
      (buildSteps freq (k + 1)).inq[256 + k]? = some (some true) ∧
      (buildSteps freq (k + 1)).inq[x.toNat]? = some (some false) ∧
      (buildSteps freq (k + 1)).inq[y.toNat]? = some (some false) ∧
      ∀ n : NodeIdx, n.toNat ≠ 256 + k → n ≠ x → n ≠ y →
        (buildSteps freq (k + 1)).inq[n.toNat]? = (buildSteps freq k).inq[n.toNat]?

/-- The queue loses one entry in each of the 255 steps (R126), and after BUILD the root is the only entry (R24). -/
def Obligations.QueueShrinksByOneEachStep : Prop :=
  ∀ freq : Vector Count Config.nLeaf,
    (∀ k ≤ 255, (buildSteps freq k).queue.length = 256 - k) ∧
    ∀ n : NodeIdx, n.toNat ≤ 510 → (buildForest freq).inq[n.toNat]? = some (some (decide (n = 510)))

/-- R125: BUILD is refused with ERR_BUSY and no effect while a decode is active; else it runs INIT and COMBINE(0), ...,
COMBINE(254), sets TV and clears CV, and touches nothing else. -/
def Obligations.BuildRunsInitAndAllCombines : Prop :=
  ∀ s : State,
    (s.active = true → exec .build s = .next (s.addResponse 0x3000000000000000)) ∧
    (s.active = false → exec .build s =
      .next { s with arena := (buildSteps s.freq 255).arena, inq := (buildSteps s.freq 255).inq, tv := true, cv := false,
                     responses := s.responses ++ [0] })

/-- R127: after BUILD the arena is a strict binary tree with one leaf for each Symbol, each node but the root the child of
exactly one internal node, each node on exactly one path from 510, and the root weighs the sum of the counts. -/
def Obligations.BuildGivesAStrictBinaryTree : Prop :=
  ∀ s : State, s.active = false → ∃ t, exec .build s = .next t ∧ StrictTree t.arena ∧
    RootWeighs t.arena (freqSum s.freq) ∧
    ∀ n : NodeIdx, n.toNat ≤ 510 → ∃ p, walk t.arena Config.root p = some n ∧
      ∀ q, walk t.arena Config.root q = some n → q = p

/-- R130: no weight exceeds 256 × (2^32 − 1), so the 40-bit addition never wraps. -/
def Obligations.WeightsNeverWrap : Prop :=
  ∀ (freq : Vector Count Config.nLeaf) (n : NodeIdx) (nd : Node), nodeAt (buildForest freq).arena n = .ok nd →
    nd.w.toNat ≤ 0xFFFFFFFF00 ∧
    (nd.leaf = false → ∃ x y, nodeAt (buildForest freq).arena nd.l = .ok x ∧
      nodeAt (buildForest freq).arena nd.r = .ok y ∧ nd.w.toNat = x.w.toNat + y.w.toNat)

/-- R128: two builds from the same table give bit-identical arenas and queues, whatever else the states hold. -/
def Obligations.BuildDependsOnFreqOnly : Prop :=
  ∀ s1 s2 : State, s1.freq = s2.freq → s1.active = false → s2.active = false →
    ∃ t1 t2, exec .build s1 = .next t1 ∧ exec .build s2 = .next t2 ∧ t1.arena = t2.arena ∧ t1.inq = t2.inq

/-- R129: when all counts are equal, as in the table of the empty input, step `k` combines nodes `2k` and `2k + 1`, and the
code of a Symbol is its 8-bit numeral, most significant bit first. -/
def Obligations.EqualCountsGiveTheCompleteTree : Prop :=
  ∀ v : Count,
    (∀ k < 255, ∃ w, nodeAt (buildForest (Vector.replicate _ v)).arena (BitVec.ofNat 9 (256 + k)) =
      .ok { w := w, l := BitVec.ofNat 9 (2 * k), r := BitVec.ofNat 9 (2 * k + 1), leaf := false, sym := 0 }) ∧
    ∀ c : Symbol, IsCode (buildForest (Vector.replicate _ v)).arena c ((List.range 8).map fun j => c.getLsbD (7 - j))

/-- R131: RDN checks its range, then TV, then returns the structure word (`sel` 0) or the weight (`sel` 1) of the node, and
changes nothing. In a state with TV = 1 that meets the invariants every index up to 510 names a node. -/
def Obligations.RdnReturnsTheNode : Prop :=
  ∀ (sel : BitVec 8) (idx : NodeIdx) (s : State),
    ((1 < sel.toNat ∨ idx = 511) → exec (.rdn sel idx) s = .next (s.addResponse 0x4000000000000000)) ∧
    (sel.toNat ≤ 1 → idx ≠ 511 → s.tv = false → exec (.rdn sel idx) s = .next (s.addResponse 0x2000000000000000)) ∧
    (sel.toNat ≤ 1 → idx ≠ 511 → s.tv = true → Inv s → ∃ nd, nodeAt s.arena idx = .ok nd ∧
      exec (.rdn sel idx) s = .next (s.addResponse (BitVec.ofNat 64
        (if sel = 0 then nd.leaf.toNat * 2 ^ 26 + nd.sym.toNat * 2 ^ 18 + nd.l.toNat * 2 ^ 9 + nd.r.toNat
         else nd.w.toNat))))

/-! ### The Code Table Generator -/

/-- R153: GEN is refused with ERR_SEQ while TV = 0; else it writes all 256 codes of the tree into CLEN and CBITS, each
left-justified with zeros after it (R154), and sets CV. -/
def Obligations.GenWritesEveryCode : Prop :=
  ∀ s : State,
    (s.tv = false → exec .gen s = .next (s.addResponse 0x2000000000000000)) ∧
    (s.tv = true → StrictTree s.arena → ∃ t, exec .gen s = .next t ∧
      (∀ c, ∃ p, IsCode s.arena c p ∧ TableHolds t c p) ∧
      t = { s with clen := t.clen, cbits := t.cbits, cv := true, responses := s.responses ++ [0] })

/-- R157: RDCL is refused with ERR_SEQ while CV = 0; else it returns the length of the Symbol's code. -/
def Obligations.RdclReturnsTheLength : Prop :=
  ∀ (c : Symbol) (s : State),
    (s.cv = false → exec (.rdcl c) s = .next (s.addResponse 0x2000000000000000)) ∧
    ∀ p, s.cv = true → TableHolds s c p → exec (.rdcl c) s = .next (s.addResponse (BitVec.ofNat 64 p.length))

/-- R158: RDCW is refused with ERR_SEQ while CV = 0; else it returns path bits `32w` to `32w + 31`, path bit `32w + j` in
data bit `31 - j`, and zeros above. -/
def Obligations.RdcwReturnsThePathBits : Prop :=
  ∀ (c : Symbol) (w : BitVec 3) (s : State),
    (s.cv = false → exec (.rdcw c w) s = .next (s.addResponse 0x2000000000000000)) ∧
    ∀ p, s.cv = true → TableHolds s c p → ∃ rw : RespWord, exec (.rdcw c w) s = .next (s.addResponse rw) ∧
      (∀ j < 32, rw.getLsbD (31 - j) = p.getD (32 * w.toNat + j) false) ∧ ∀ j, 32 ≤ j → rw.getLsbD j = false

/-- Every Symbol has exactly one code, and it has 1 to 255 bits (laws 1, 2 and 6 of R155; R159). -/
def Obligations.EverySymbolHasOneCode : Prop :=
  ∀ a : Arena, StrictTree a → ∀ c : Symbol, ∃ p, IsCode a c p ∧ 1 ≤ p.length ∧ p.length ≤ 255 ∧
    ∀ q, IsCode a c q → q = p

/-- No code is a prefix of another Symbol's code (law 3 of R155). -/
def Obligations.CodesArePrefixFree : Prop :=
  ∀ a : Arena, StrictTree a → ∀ (c d : Symbol) (p q : List Bool), c ≠ d → IsCode a c p → IsCode a d q → ¬ p <+: q

/-- The Kraft sum of the 256 codes is exactly 1, here multiplied by 2^255 (law 5 of R155). -/
def Obligations.KraftSumIsOne : Prop :=
  ∀ (a : Arena) (len : Symbol → Nat), StrictTree a → (∀ c, ∃ p, IsCode a c p ∧ p.length = len c) →
    ((List.finRange 256).map fun c => 2 ^ (255 - len (BitVec.ofFin c))).sum = 2 ^ 255

/-- A more frequent Symbol never has a longer code (law 4 of R155). -/
def Obligations.MoreFrequentIsNeverLonger : Prop :=
  ∀ (freq : Vector Count Config.nLeaf) (c d : Symbol) (p q : List Bool),
    IsCode (buildForest freq).arena c p → IsCode (buildForest freq).arena d q →
    (freq[d.toNat]'d.isLt).toNat < (freq[c.toNat]'c.isLt).toNat → p.length ≤ q.length

/-! ### The Decoder -/

/-- R171: DSTART is refused with ERR_SEQ while TV = 0; else it arms the decoder at the root with TOTAL the root's weight, in
DONE at once if that is 0 (R172), in every decoder state. -/
def Obligations.DstartArmsTheDecoder : Prop :=
  ∀ s : State,
    (s.tv = false → exec .dstart s = .next (s.addResponse 0x2000000000000000)) ∧
    ∀ root, s.tv = true → nodeAt s.arena 510 = .ok root → exec .dstart s =
      .next { s with den := true, total := root.w, ecnt := 0, bitpos := 0, cur := 510, cause := .none,
                     dstate := if root.w = 0 then .done else .atRoot, responses := s.responses ++ [0] }

/-- R173: one valid bit while active leads left on 0 and right on 1; at an internal node the cursor moves there, at a leaf
the leaf's Symbol is emitted and the cursor goes back to the root, in DONE when the declared count is reached. -/
def Obligations.DbitTakesOneEdge : Prop :=
  ∀ (b : Bool) (s : State) (here nd : Node) (n : NodeIdx), s.active = true → nodeAt s.arena s.cur = .ok here →
    here.leaf = false → n = (if b then here.r else here.l) → nodeAt s.arena n = .ok nd →
    (nd.leaf = false → exec (.dbit (if b then 1 else 0)) s =
      .next { s with bitpos := s.bitpos + 1, cur := n, dstate := .atInternal, responses := s.responses ++ [0] }) ∧
    (nd.leaf = true → exec (.dbit (if b then 1 else 0)) s =
      .next { s with bitpos := s.bitpos + 1, cur := 510, ecnt := s.ecnt + 1, out := s.out ++ [nd.sym],
                     dstate := if s.ecnt + 1 = s.total then .done else .atRoot,
                     responses := s.responses ++ [0x0100000000000000] })

/-- In every active state that meets the invariants each bit completes: STEP never meets a cursor without children (R173). -/
def Obligations.DbitCompletesWheneverActive : Prop :=
  ∀ (b : Bool) (s : State), Inv s → s.active = true → ∃ (n : NodeIdx) (nd : Node) (t : State),
    walk s.arena s.cur [b] = some n ∧ nodeAt s.arena n = .ok nd ∧ exec (.dbit (if b then 1 else 0)) s = .next t ∧
    t.bitpos.toNat = s.bitpos.toNat + 1 ∧
    (nd.leaf = true → t.ecnt.toNat = s.ecnt.toNat + 1 ∧ t.cur = 510 ∧ t.out = s.out ++ [nd.sym]) ∧
    (nd.leaf = false → t.ecnt = s.ecnt ∧ t.cur = n ∧ t.out = s.out)

/-- R175: a code point other than 0 and 1 while active is the CORRUPT entry with cause INVALID_BIT: CUR, BITPOS, ECNT and
TOTAL are kept, nothing is emitted, the answer is ERR_CORRUPT. -/
def Obligations.InvalidBitEntersCorrupt : Prop :=
  ∀ (v : BitVec 8) (s : State), s.active = true → 1 < v.toNat →
    exec (.dbit v) s = .next { s with dstate := .corrupt, cause := .invalidBit, responses := s.responses ++ [0x5000000000000000] }

/-- R176: DBYTE is refused with ERR_SEQ while DEN = 0 and with ERR_CORRUPT in CORRUPT; else it has exactly the effect on state
and OUT of the eight DBITs of its bits, most significant first (R62), answered once with `ne` the number of Symbols emitted,
and it never enters CORRUPT. -/
def Obligations.DbyteIsEightDbits : Prop :=
  ∀ (x : BitVec 8) (s : State),
    (s.den = false → exec (.dbyte x) s = .next (s.addResponse 0x2000000000000000)) ∧
    (s.den = true → s.dstate = .corrupt → exec (.dbyte x) s = .next (s.addResponse 0x5000000000000000)) ∧
    (Inv s → s.den = true → s.dstate ≠ .corrupt →
      ∃ (t u : State) (ne : Nat), exec (.dbyte x) s = .next t ∧
        execAll ((List.range 8).map fun j => .dbit (if x.getLsbD (7 - j) then 1 else 0)) s = .next u ∧
        t = { u with responses := s.responses ++ [respWord .ok ne 0] } ∧ ne ≤ 8 ∧ u.out.length = s.out.length + ne ∧
        u.dstate ≠ .corrupt)

/-- R177: DEND is an error in both active states, with the cause that tells them apart, and otherwise answers as the end
state says and changes nothing. -/
def Obligations.DendEndsTheStream : Prop :=
  ∀ s : State,
    (s.den = false → exec .dend s = .next (s.addResponse 0x2000000000000000)) ∧
    (s.den = true → s.dstate = .done → exec .dend s = .next (s.addResponse 0)) ∧
    (s.den = true → s.dstate = .corrupt → exec .dend s = .next (s.addResponse 0x5000000000000000)) ∧
    (s.den = true → s.dstate = .atInternal → exec .dend s =
      .next { s with dstate := .corrupt, cause := .truncMidCode, responses := s.responses ++ [0x5000000000000000] }) ∧
    (s.den = true → s.dstate = .atRoot → exec .dend s =
      .next { s with dstate := .corrupt, cause := .truncAtRoot, responses := s.responses ++ [0x5000000000000000] })

/-- R178: in DONE, DBIT, DBYTE and DEND are answered OK with `ne` 0 and change nothing, whatever their operand; a step that
leaves DONE ran DSTART or CLR, or was the reset. -/
def Obligations.DoneIgnoresTheBody : Prop :=
  (∀ (i : Instr) (s : State), presentsBody i → s.den = true → s.dstate = .done → exec i s = .next (s.addResponse 0)) ∧
  ∀ s t : State, s.den = true → s.dstate = .done → step s = .next t →
    (t.den = true ∧ t.dstate = .done) ∨ NextCommandIs s .dstart ∨ NextCommandIs s .clr ∨ NextIsReset s

/-- R179: in CORRUPT, DBIT, DBYTE and DEND are answered ERR_CORRUPT with `ne` 0 and change nothing; a step that leaves
CORRUPT, or changes CAUSE or a frozen register, ran DSTART with TV = 1, or CLR, or was the reset. -/
def Obligations.CorruptRefusesTheBody : Prop :=
  (∀ (i : Instr) (s : State), presentsBody i → s.den = true → s.dstate = .corrupt →
    exec i s = .next (s.addResponse 0x5000000000000000)) ∧
  ∀ s t : State, s.den = true → s.dstate = .corrupt → step s = .next t →
    (t.den = true ∧ t.dstate = .corrupt ∧ t.cause = s.cause ∧ t.cur = s.cur ∧ t.bitpos = s.bitpos ∧ t.ecnt = s.ecnt ∧
      t.total = s.total) ∨ (NextCommandIs s .dstart ∧ s.tv = true) ∨ NextCommandIs s .clr ∨ NextIsReset s

/-- R182: with FREQ the byte counts of `cs` and the tree built, the body of `cs`, presented after DSTART by any mix of DBIT
and DBYTE and with any bits after it, decodes to exactly `cs`: the decoder is in DONE, BITPOS is the body's length, every
response is OK. -/
def Obligations.DecodeOfEncodedBodyIsTheInput : Prop :=
  ∀ (s : State) (cs : List Symbol) (body pad : List Bool) (cmds : List Instr), Inv s → s.tv = true →
    CountsOf s.freq cs → IsBody s.arena cs body → bodyBits cmds = some (body ++ pad) →
    ∃ (t u : State) (rws : List RespWord), exec .dstart s = .next t ∧ execAll cmds t = .next u ∧ u.out = s.out ++ cs ∧
      u.den = true ∧ u.dstate = .done ∧ u.bitpos.toNat = body.length ∧ u.responses = s.responses ++ rws ∧
      ∀ rw ∈ rws, stField rw = 0

/-- The counters stay in their bounds, so they never wrap: ECNT is at most TOTAL, BITPOS at least ECNT and at most
255 × TOTAL, which is below 2^48 (R33, R183). -/
def Obligations.CountersStayBounded : Prop :=
  ∀ s : State, Inv s → s.ecnt.toNat ≤ s.total.toNat ∧ s.ecnt.toNat ≤ s.bitpos.toNat ∧
    s.bitpos.toNat ≤ 255 * s.total.toNat ∧ 255 * s.total.toNat < 2 ^ 48

/-- The decoder reads neither FREQ nor the code table: its commands do the same whatever these hold (R20, R153). -/
def Obligations.DecoderNeverReadsTheCodeTable : Prop :=
  ∀ (i : Instr) (s t : State) (freq : Vector Count Config.nLeaf) (clen : Vector (Option CodeLen) Config.nLeaf)
    (cbits : Vector (Option CodeBits) Config.nLeaf) (cv : Bool), (presentsBody i ∨ i = .dstart) → exec i s = .next t →
    exec i { s with freq := freq, clen := clen, cbits := cbits, cv := cv } =
      .next { t with freq := freq, clen := clen, cbits := cbits, cv := cv }

/-! ### Control -/

/-- R200: NOP does nothing, in any state, and is answered OK. -/
def Obligations.NopDoesNothing : Prop := ∀ s : State, exec .nop s = .next (s.addResponse 0)

/-- R201: CLR is never refused and puts every item of the block into its reset state, the arena, queue and code table
unspecified; OUT is not changed. -/
def Obligations.ClrResetsTheBlock : Prop :=
  ∀ s : State, ∃ t, exec .clr s = .next t ∧
    (∀ c, t.freqAt c = 0) ∧ t.tv = false ∧ t.cv = false ∧ t.den = false ∧ t.dstate = .atRoot ∧ t.cur = 510 ∧
    t.bitpos = 0 ∧ t.ecnt = 0 ∧ t.total = 0 ∧ t.cause = .none ∧
    (∀ n < 511, t.arena[n]? = some none ∧ t.inq[n]? = some none) ∧
    (∀ n < 256, t.clen[n]? = some none ∧ t.cbits[n]? = some none) ∧
    t.out = s.out ∧ t.responses = s.responses ++ [0]

/-- R202: RDS returns one word of the status view in every state, and changes nothing; the flags word (R40) shows DSTATE and
CAUSE in the encodings of R30 and R35, which are fixed here one by one. -/
def Obligations.RdsReturnsTheStatusView : Prop :=
  (DState.atRoot.code = 0 ∧ DState.atInternal.code = 1 ∧ DState.done.code = 2 ∧ DState.corrupt.code = 3) ∧
  (Cause.none.code = 0 ∧ Cause.truncMidCode.code = 1 ∧ Cause.truncAtRoot.code = 2 ∧ Cause.invalidBit.code = 3) ∧
  ∀ (sel : BitVec 8) (s : State),
    (3 < sel.toNat → exec (.rds sel) s = .next (s.addResponse 0x4000000000000000)) ∧
    (sel = 0 → exec (.rds sel) s = .next (s.addResponse (BitVec.ofNat 64
      (s.cur.toNat * 2 ^ 7 + s.cause.code.toNat * 2 ^ 5 + s.cv.toNat * 2 ^ 4 + s.tv.toNat * 2 ^ 3 + s.den.toNat * 2 ^ 2 +
        s.dstate.code.toNat)))) ∧
    (sel = 1 → exec (.rds sel) s = .next (s.addResponse (BitVec.ofNat 64 s.ecnt.toNat))) ∧
    (sel = 2 → exec (.rds sel) s = .next (s.addResponse (BitVec.ofNat 64 s.total.toNat))) ∧
    (sel = 3 → exec (.rds sel) s = .next (s.addResponse (BitVec.ofNat 64 s.bitpos.toNat)))

/-! ### Rules about the whole machine -/

/-- The state after reset meets the invariants, and holds the values of R42: every entry of the arena (W, L, R, LEAF, SYM), of
INQ, CLEN and CBITS is unspecified, that is holds no value. -/
def Obligations.ResetMeetsTheInvariants : Prop :=
  Inv State.reset ∧ (∀ c, State.reset.freqAt c = 0) ∧ State.reset.tv = false ∧ State.reset.cv = false ∧
    State.reset.den = false ∧ State.reset.dstate = .atRoot ∧ State.reset.cur = 510 ∧ State.reset.bitpos = 0 ∧
    State.reset.ecnt = 0 ∧ State.reset.total = 0 ∧ State.reset.cause = .none ∧ State.reset.out = [] ∧
    (∀ n < 511, State.reset.arena[n]? = some none ∧ State.reset.inq[n]? = some none) ∧
    (∀ n < 256, State.reset.clen[n]? = some none ∧ State.reset.cbits[n]? = some none) ∧
    State.reset.doneOut = false ∧ State.reset.corruptOut = false

/-- Every step keeps the invariants of R39, from every state that meets them. -/
def Obligations.EveryStepKeepsTheInvariants : Prop := ∀ s t : State, Inv s → step s = .next t → Inv t

/-- No step stops: in a state that meets the invariants every input, whatever word the host presents, is answered, and
the cases the spec calls stuck are not reached (R12, R91, U2, U5, U13). -/
def Obligations.NoStepEverStops : Prop := ∀ s : State, Inv s → ∃ t, step s = .next t

/-- R89: a command whose selector or index names nothing is answered ERR_RANGE before any flag is looked at, and a
well-formed one never is. -/
def Obligations.IllFormedOperandsAreOutOfRange : Prop :=
  (∀ (i : Instr) (s : State), ¬ i.WellFormed → exec i s = .next (s.addResponse 0x4000000000000000)) ∧
  (∀ i : Instr, ¬ i.WellFormed ↔
    (∃ sel idx, i = .rdn sel idx ∧ (1 < sel.toNat ∨ idx = 511)) ∨ ∃ sel, i = .rds sel ∧ 3 < sel.toNat) ∧
  ∀ (i : Instr) (s t : State), i.WellFormed → exec i s = .next t →
    ∃ rw, t.responses = s.responses ++ [rw] ∧ stField rw ≠ 4

/-- A command whose prerequisite flag is 0 is refused with ERR_SEQ and changes nothing (R212, R244). -/
def Obligations.MissingPrerequisiteIsRefused : Prop :=
  ∀ (i : Instr) (s : State), i.WellFormed →
    (s.tv = false → (i = .gen ∨ i = .dstart ∨ ∃ sel idx, i = .rdn sel idx) →
      exec i s = .next (s.addResponse 0x2000000000000000)) ∧
    (s.cv = false → ((∃ c, i = .rdcl c) ∨ ∃ c w, i = .rdcw c w) →
      exec i s = .next (s.addResponse 0x2000000000000000)) ∧
    (s.den = false → presentsBody i → exec i s = .next (s.addResponse 0x2000000000000000))

/-- R247: while the decoder is active LDF and BUILD are refused with ERR_BUSY and change nothing; DSTART, GEN, NOP, the reads
and CLR are accepted; and no command but CLR changes the tree or FREQ. -/
def Obligations.ActiveDecodeLocksTheTree : Prop :=
  (∀ (c : Symbol) (count : Count) (s : State), s.active = true →
    exec (.ldf c count) s = .next (s.addResponse 0x3000000000000000) ∧
    exec .build s = .next (s.addResponse 0x3000000000000000)) ∧
  (∀ (i : Instr) (s : State), Inv s → s.active = true → i.WellFormed → (i = .dstart ∨ i = .gen ∨ i = .nop ∨ i = .clr ∨ isRead i) →
    (s.cv = true ∨ ((∀ c, i ≠ .rdcl c) ∧ ∀ c w, i ≠ .rdcw c w)) →
    ∃ t rw, exec i s = .next t ∧ t.responses = s.responses ++ [rw] ∧ stField rw = 0) ∧
  ∀ (i : Instr) (s t : State), s.active = true → exec i s = .next t →
    (t.arena = s.arena ∧ t.inq = s.inq ∧ t.freq = s.freq) ∨ i = .clr

/-- Every command gives one response; what it emitted is appended to OUT and counted in `ne`, at most 1 for DBIT, 8 for DBYTE
and 0 for any other; a response that is not OK has `ne` 0 and data 0 (R36, R87, R88). What the host has yet to present is
kept: the model's own clause (log entry 5). -/
def Obligations.EveryCommandGivesOneResponse : Prop :=
  ∀ (i : Instr) (s t : State), exec i s = .next t →
    ∃ (st : Status) (syms : List Symbol) (data : RespData),
      t.responses = s.responses ++ [respWord st syms.length data] ∧ t.out = s.out ++ syms ∧ t.inputs = s.inputs ∧
      syms.length ≤ 8 ∧ (syms ≠ [] → (∃ x, i = .dbyte x) ∨ ((∃ v, i = .dbit v) ∧ syms.length = 1)) ∧
      (st ≠ .ok → syms = [] ∧ data = 0)

/-- A command answered with a status from 1 to 4 has changed no state (R88, R212). -/
def Obligations.RefusedCommandsChangeNothing : Prop :=
  ∀ (i : Instr) (s t : State) (rw : RespWord), exec i s = .next t → t.responses = s.responses ++ [rw] →
    1 ≤ (stField rw).toNat → (stField rw).toNat ≤ 4 → t = s.addResponse rw

/-- Each piece of state is written only by the commands that the table of R20 lists as its writers. -/
def Obligations.OnlyTheListedCommandsWrite : Prop :=
  ∀ (i : Instr) (s t : State), exec i s = .next t → i ≠ .clr →
    (t.freq ≠ s.freq → ∃ c count, i = .ldf c count) ∧
    (t.arena ≠ s.arena ∨ t.inq ≠ s.inq → i = .build) ∧
    (t.clen ≠ s.clen ∨ t.cbits ≠ s.cbits → i = .gen) ∧
    (t.tv ≠ s.tv → i = .build ∨ ∃ c count, i = .ldf c count) ∧
    (t.cv ≠ s.cv → i = .gen ∨ i = .build ∨ ∃ c count, i = .ldf c count) ∧
    (t.den ≠ s.den ∨ t.total ≠ s.total → i = .dstart) ∧
    (t.dstate ≠ s.dstate → i = .dstart ∨ (∃ v, i = .dbit v) ∨ (∃ x, i = .dbyte x) ∨ i = .dend) ∧
    (t.cur ≠ s.cur ∨ t.bitpos ≠ s.bitpos ∨ t.ecnt ≠ s.ecnt → i = .dstart ∨ (∃ v, i = .dbit v) ∨ ∃ x, i = .dbyte x) ∧
    (t.cause ≠ s.cause → i = .dstart ∨ (∃ v, i = .dbit v) ∨ i = .dend)

/-- The reading commands RDF, RDN, RDCL, RDCW and RDS have no side effect: they change nothing but the record of responses,
and repeated at once they give the same response (R66). -/
def Obligations.ReadsHaveNoSideEffect : Prop :=
  ∀ (i : Instr) (s t : State), isRead i → exec i s = .next t → ∃ rw, t = s.addResponse rw ∧ exec i t = .next (t.addResponse rw)

/-- A Symbol that has been emitted is never withdrawn (R36, R248). The second clause, that a response given is never taken
back in any step, hardware reset included, is the model's choice (log entries 3, 4 and 6). -/
def Obligations.OutputIsNeverWithdrawn : Prop :=
  ∀ s t : State, step s = .next t → s.out <+: t.out ∧ s.responses <+: t.responses

/-- R43: the level outputs are functions of the state that say nothing the flags word of RDS 0 does not: `done` is bits
[2:0] = 6 and `corrupt` bits [2:0] = 7. -/
def Obligations.LevelOutputsMirrorTheFlagsWord : Prop :=
  ∀ s : State, (s.doneOut = true ↔ s.flagsWord.extractLsb' 0 3 = 6) ∧ (s.corruptOut = true ↔ s.flagsWord.extractLsb' 0 3 = 7) ∧
    (s.doneOut = true ↔ s.den = true ∧ s.dstate = .done) ∧ (s.corruptOut = true ↔ s.den = true ∧ s.dstate = .corrupt)
end

