-- ==== Sys2Proof/Laws/Queue.lean ====
section
/-! SUPPORT. What the priority queue's operations do: the least key, and the entries before and after a removal or an
insertion (41_tree_builder.md R120, R121). -/

namespace Sys2Proof.Machine

/-! ### The order of keys -/

theorem keyLt_iff (a b : QueueEntry) :
    keyLt a b = true ↔ a.w.toNat < b.w.toNat ∨ (a.w.toNat = b.w.toNat ∧ a.n < b.n) := by
  simp [keyLt]

/-- Entries at different nodes are ordered one way or the other. -/
theorem keyLt_total {a b : QueueEntry} (h : a.n ≠ b.n) : keyLt a b = true ∨ keyLt b a = true := by
  simp only [keyLt_iff]; omega

theorem keyLt_trans {a b c : QueueEntry} (hab : keyLt a b = true) (hbc : keyLt b c = true) : keyLt a c = true := by
  simp only [keyLt_iff] at *; omega

theorem keyLt_irrefl (a : QueueEntry) : keyLt a a = false := by simp [keyLt]

/-! ### The least key -/

theorem leastKey_eq_none {l : List QueueEntry} : leastKey l = none ↔ l = [] := by
  cases l with
  | nil => simp [leastKey]
  | cons e es => simp only [leastKey]; split <;> (try split) <;> simp

/-- The least entry is an entry, and none has a lesser key. -/
theorem leastKey_spec {l : List QueueEntry} {m : QueueEntry} (h : leastKey l = some m) :
    m ∈ l ∧ ∀ e ∈ l, keyLt e m = false := by
  induction l generalizing m with
  | nil => simp [leastKey] at h
  | cons e es ih =>
    simp only [leastKey] at h
    split at h
    · next hn =>
      cases h
      simp [leastKey_eq_none.mp hn, keyLt_irrefl]
    · next m' hm =>
      obtain ⟨hmem, hle⟩ := ih hm
      split at h <;> cases h
      · next hlt =>
        refine ⟨.tail _ hmem, fun x hx => ?_⟩
        rcases List.mem_cons.mp hx with rfl | hx
        · by_contra hc
          have := keyLt_trans hlt (by simpa using hc)
          simp [keyLt_irrefl] at this
        · exact hle x hx
      · next hlt =>
        refine ⟨.head _, fun x hx => ?_⟩
        rcases List.mem_cons.mp hx with rfl | hx
        · exact keyLt_irrefl _
        · have h1 := hle x hx
          simp only [Bool.not_eq_true] at hlt
          by_contra hc
          simp only [Bool.not_eq_false] at hc
          simp only [← Bool.not_eq_true, keyLt_iff] at *
          omega

/-! ### The queue as a function of the entries -/

theorem entryAt_n {f : Forest} {n : Nat} {e : QueueEntry} (h : f.entryAt n = some e) : e.n = n := by
  unfold Forest.entryAt at h
  split at h <;> simp at h
  rw [← h]

theorem entryAt_iff {f : Forest} {n : Nat} {e : QueueEntry} :
    f.entryAt n = some e ↔
      ∃ nd, f.inq[n]? = some (some true) ∧ f.arena[n]? = some (some nd) ∧ e = ⟨nd.w, n⟩ := by
  unfold Forest.entryAt
  split
  · next nd h1 h2 =>
    constructor
    · rintro ⟨⟩
      exact ⟨nd, h1, h2, rfl⟩
    · rintro ⟨nd', -, h2', rfl⟩
      rw [h2] at h2'
      cases h2'
      rfl
  · next hne =>
    constructor
    · rintro ⟨⟩
    · rintro ⟨nd, h1, h2, -⟩
      exact absurd h2 (hne nd h1)

theorem mem_queue {f : Forest} {e : QueueEntry} : e ∈ f.queue ↔ f.entryAt e.n = some e := by
  simp only [Forest.queue, List.mem_filterMap, List.mem_range]
  constructor
  · rintro ⟨n, -, h⟩
    rwa [entryAt_n h]
  · intro h
    refine ⟨e.n, ?_, h⟩
    obtain ⟨nd, h1, -⟩ := entryAt_iff.mp h
    by_contra hc
    rw [Vector.getElem?_eq_none (by omega)] at h1
    cases h1

/-- A function changed at one index from a value to none: the list of its values loses that value. -/
theorem filterMap_range_remove {α : Type} {g g' : Nat → Option α} {m N : Nat} {e : α} (hm : m < N) (hg : g m = some e)
    (hg' : g' m = none) (same : ∀ n, n ≠ m → g' n = g n) :
    ((List.range N).filterMap g).Perm (e :: (List.range N).filterMap g') := by
  have hp : (List.range N).Perm (m :: (List.range N).erase m) := List.perm_cons_erase (by simpa using hm)
  have h1 := hp.filterMap g
  have h2 := hp.filterMap g'
  rw [List.filterMap_cons_some hg] at h1
  rw [List.filterMap_cons_none hg'] at h2
  refine h1.trans (List.Perm.cons _ (?_ : List.Perm _ _))
  refine List.Perm.trans (List.Perm.of_eq ?_) h2.symm
  apply List.filterMap_congr
  intro n hn
  rw [same n]
  rintro rfl
  exact (List.Nodup.not_mem_erase List.nodup_range) hn

/-! ### Removing and inserting -/

theorem entryAt_setInq_ne (f : Forest) {m n : Nat} (b : Bool) (h : n ≠ m) : (f.setInq m b).entryAt n = f.entryAt n := by
  unfold Forest.entryAt Forest.setInq
  simp only [Vector.getElem?_setIfInBounds]
  rw [if_neg (by omega)]

theorem entryAt_setInq_false (f : Forest) (m : Nat) : (f.setInq m false).entryAt m = none := by
  unfold Forest.entryAt Forest.setInq
  simp only [Vector.getElem?_setIfInBounds]
  split <;> simp_all

/-- `removeMin` takes the entry of least key out of the queue and leaves the arena and the other entries alone. -/
theorem removeMin_spec {f f' : Forest} {m : QueueEntry} (h : f.removeMin = some (m, f')) :
    f.entryAt m.n = some m ∧ (∀ e ∈ f.queue, keyLt e m = false) ∧ f.queue.Perm (m :: f'.queue) ∧
      f' = f.setInq m.n false := by
  unfold Forest.removeMin Forest.peekMin at h
  split at h
  · cases h
  · next m' hm =>
    cases h
    obtain ⟨hmem, hle⟩ := leastKey_spec hm
    have he := mem_queue.mp hmem
    refine ⟨he, hle, ?_, rfl⟩
    refine filterMap_range_remove (m := m.n) ?_ he (entryAt_setInq_false f m.n)
      (fun n hn => entryAt_setInq_ne f false hn)
    obtain ⟨nd, h1, -⟩ := entryAt_iff.mp he
    by_contra hc
    rw [Vector.getElem?_eq_none (by omega)] at h1
    cases h1

theorem removeMin_eq_none {f : Forest} : f.removeMin = none ↔ f.queue = [] := by
  unfold Forest.removeMin Forest.peekMin
  rw [← leastKey_eq_none]
  split <;> simp_all

theorem entryAt_insertNode_self (f : Forest) {n : Nat} (nd : Node) (hn : n < 511) :
    (f.insertNode n nd).entryAt n = some ⟨nd.w, n⟩ := by
  simp [Forest.entryAt, Forest.insertNode, Forest.setInq, hn, Config.nNode]

theorem entryAt_insertNode_ne (f : Forest) {m n : Nat} (nd : Node) (h : n ≠ m) :
    (f.insertNode m nd).entryAt n = f.entryAt n := by
  unfold Forest.entryAt Forest.insertNode Forest.setInq
  simp only [Vector.getElem?_setIfInBounds]
  rw [if_neg (by omega), if_neg (by omega)]

/-- Inserting a new node adds its entry to the queue. -/
theorem queue_insertNode (f : Forest) {n : Nat} (nd : Node) (hn : n < 511) (fresh : f.entryAt n = none) :
    (f.insertNode n nd).queue.Perm (⟨nd.w, n⟩ :: f.queue) :=
  filterMap_range_remove hn (entryAt_insertNode_self f nd hn) fresh
    (fun _ hk => (entryAt_insertNode_ne f nd hk).symm)

end Sys2Proof.Machine
end

