-- ==== Sys2Proof/Laws/Build.lean ====
section
/-! SUPPORT. What INIT and the combination steps build: after `k` steps the arena holds a forest of strict binary trees
whose roots are the queue's entries (41_tree_builder.md R122, R123, R126, R127, R130). -/

namespace Sys2Proof.Machine

variable {freq : Vector Count Config.nLeaf}

/-- `n` is a child of the internal node `p`, by plain indices. -/
def HasChild (a : Arena) (p n : Nat) : Prop :=
  ∃ nd, a[p]? = some (some nd) ∧ nd.leaf = false ∧ (nd.l.toNat = n ∨ nd.r.toNat = n)

/-- What holds of the forest after `k` combination steps. -/
structure Built (freq : Vector Count Config.nLeaf) (k : Nat) (f : Forest) : Prop where
  leafNodes : ∀ n, ∀ h : n < 256, f.arena[n]? = some (some (leafNode n freq[n]))
  inner : ∀ n, 256 ≤ n → n < 256 + k → ∃ nd x y, f.arena[n]? = some (some nd) ∧
    f.arena[nd.l.toNat]? = some (some x) ∧ f.arena[nd.r.toNat]? = some (some y) ∧ nd.leaf = false ∧ nd.sym = 0 ∧
    nd.l.toNat ≠ nd.r.toNat ∧ nd.l.toNat < n ∧ nd.r.toNat < n ∧ nd.w.toNat = x.w.toNat + y.w.toNat
  unwritten : ∀ n, 256 + k ≤ n → n < 511 → f.arena[n]? = some none ∧ f.inq[n]? = some (some false)
  queued : ∀ n, n < 256 + k →
    (f.inq[n]? = some (some true) ∧ ∀ p, ¬ HasChild f.arena p n) ∨
    (f.inq[n]? = some (some false) ∧ ∃ p, HasChild f.arena p n ∧ ∀ q, HasChild f.arena q n → q = p)
  size : f.queue.length = 256 - k
  weight : (f.queue.map fun e => e.w.toNat).sum = freqSum freq

/-! ### INIT -/

theorem initForest_entryAt (n : Nat) :
    (initForest freq).entryAt n = if h : n < 256 then some ⟨freq[n].setWidth 40, n⟩ else none := by
  by_cases h : n < 256
  · have h' : n < 511 := by omega
    simp [Forest.entryAt, initForest, leafNode, h, h', Config.nNode]
  · rw [dif_neg h]
    unfold Forest.entryAt
    split
    · next h1 h2 =>
      by_cases h' : n < 511
      · simp [initForest, Config.nNode, h, h'] at h1
      · rw [Vector.getElem?_eq_none (by simp [Config.nNode]; omega)] at h1
        cases h1
    · rfl

theorem initForest_queue :
    (initForest freq).queue = (List.finRange 256).map fun c => ⟨freq[c].setWidth 40, c.val⟩ := by
  have hsplit : List.range 511 = List.range 256 ++ (List.range 255).map (256 + ·) := by
    rw [show (511 : Nat) = 256 + 255 from rfl, List.range_add]
  have hfin : List.range 256 = (List.finRange 256).map (·.val) := by simp
  have htail : ((List.range 255).map (256 + ·)).filterMap (initForest freq).entryAt = [] := by
    simp [initForest_entryAt]
  unfold Forest.queue
  rw [show Config.nNode = 511 from rfl, hsplit, List.filterMap_append, htail, List.append_nil, hfin, List.filterMap_map,
    ← List.filterMap_eq_map]
  apply List.filterMap_congr
  intro c _
  simp [initForest_entryAt]

theorem built_init : Built freq 0 (initForest freq) where
  leafNodes n h := by simp [initForest, Config.nNode, h, show n < 511 by omega]
  inner n h h' := by omega
  unwritten n h h' := by simp [initForest, Config.nNode, h', show ¬ n < 256 by omega]
  queued n h := by
    refine .inl ⟨by simp [initForest, Config.nNode, show n < 511 by omega]; omega, ?_⟩
    rintro p ⟨nd, h1, h2, -⟩
    by_cases hp : p < 256
    · simp [initForest, Config.nNode, hp, show p < 511 by omega] at h1
      simp [← h1, leafNode] at h2
    · by_cases hp' : p < 511
      · simp [initForest, Config.nNode, hp, hp'] at h1
      · rw [Vector.getElem?_eq_none (by simp [Config.nNode]; omega)] at h1
        cases h1
  size := by simp [initForest_queue]
  weight := by
    have hw : ∀ c : Fin 256, (freq[c].setWidth 40).toNat = freq[c].toNat := fun c => by
      rw [BitVec.toNat_setWidth]; exact Nat.mod_eq_of_lt (by have := freq[c].isLt; omega)
    simp only [initForest_queue, List.map_map, freqSum]
    exact congrArg List.sum (List.map_congr_left fun c _ => hw c)

/-! ### COMBINE -/

/-- The sum of the counts fits in 40 bits: 256 × (2^32 − 1) < 2^40 (R130). -/
theorem freqSum_lt (freq : Vector Count Config.nLeaf) : freqSum freq ≤ 0xFFFFFFFF00 := by
  have h : ∀ l : List (Fin 256), (l.map fun c => freq[c].toNat).sum ≤ l.length * 0xFFFFFFFF := by
    intro l
    induction l with
    | nil => simp
    | cons c cs ih => have := freq[c].isLt; simp only [List.map_cons, List.sum_cons, List.length_cons]; omega
  simpa [freqSum] using h (List.finRange 256)

/-- A child relation after node `n` has been written over `x` and `y`, where no entry stood. -/
theorem hasChild_set {a : Arena} {n p m : Nat} {nd : Node} (hn : n < 511) (fresh : a[n]? = some none)
    (hleaf : nd.leaf = false) :
    HasChild (a.setIfInBounds n (some nd)) p m ↔ HasChild a p m ∨ (p = n ∧ (nd.l.toNat = m ∨ nd.r.toNat = m)) := by
  unfold HasChild
  simp only [Vector.getElem?_setIfInBounds]
  by_cases hp : n = p
  · subst hp
    rw [if_pos rfl, if_pos hn, fresh]
    constructor
    · rintro ⟨nd', h1, -, h3⟩
      cases h1
      exact .inr ⟨rfl, h3⟩
    · rintro (⟨nd', h1, -⟩ | ⟨-, h⟩)
      · cases h1
      · exact ⟨nd, rfl, hleaf, h⟩
  · simp [hp, Ne.symm hp]

/-- The two removals of COMBINE(k) find their entries (R123). -/
theorem removals_of_size {f : Forest} (h : 2 ≤ f.queue.length) :
    ∃ x f1 y f2, f.removeMin = some (x, f1) ∧ f1.removeMin = some (y, f2) := by
  cases h1 : f.removeMin with
  | none => simp [removeMin_eq_none.mp h1] at h
  | some r =>
    obtain ⟨x, f1⟩ := r
    have hp := (removeMin_spec h1).2.2.1.length_eq
    cases h2 : f1.removeMin with
    | none => simp [removeMin_eq_none.mp h2] at hp; omega
    | some r2 => exact ⟨x, f1, r2.1, r2.2, rfl, h2⟩

/-- COMBINE in terms of its two removals. -/
theorem combine_eq {f f1 f2 : Forest} {x y : QueueEntry} (k : Nat) (h1 : f.removeMin = some (x, f1))
    (h2 : f1.removeMin = some (y, f2)) : combine f k = f2.insertNode (256 + k) (internalNode x y) := by
  unfold combine
  rw [h1]
  dsimp only
  rw [h2]

/-- What COMBINE(k) does to a built forest: `x` is the entry of least key, `y` the least after it, and node `256 + k`
is written over the two, `x` on the left (R123, R124). -/
theorem combine_spec {f : Forest} {k : Nat} (hk : k < 255) (b : Built freq k f) :
    ∃ x y ndx ndy, f.entryAt x.n = some x ∧ f.entryAt y.n = some y ∧ keyLt x y = true ∧
      (∀ e ∈ f.queue, e ≠ x → keyLt e y = false) ∧ (∀ e ∈ f.queue, keyLt e x = false) ∧
      f.arena[x.n]? = some (some ndx) ∧ f.arena[y.n]? = some (some ndy) ∧ x.w = ndx.w ∧ y.w = ndy.w ∧
      x.n < 256 + k ∧ y.n < 256 + k ∧ x.n ≠ y.n ∧ x.w.toNat + y.w.toNat ≤ freqSum freq ∧
      (combine f k).arena = f.arena.setIfInBounds (256 + k) (some (internalNode x y)) ∧
      (combine f k).inq =
        ((f.inq.setIfInBounds x.n (some false)).setIfInBounds y.n (some false)).setIfInBounds (256 + k) (some true) ∧
      f.queue.Perm (x :: y :: (f.queue.erase x).erase y) ∧
      (combine f k).queue.Perm (⟨x.w + y.w, 256 + k⟩ :: (f.queue.erase x).erase y) := by
  obtain ⟨x, f1, y, f2, h1, h2⟩ := removals_of_size (f := f) (by have := b.size; omega)
  obtain ⟨hx, hleast, hperm1, rfl⟩ := removeMin_spec h1
  obtain ⟨hy, hleast2, hperm2, rfl⟩ := removeMin_spec h2
  have hne : y.n ≠ x.n := by
    intro h
    rw [h, entryAt_setInq_false] at hy
    cases hy
  rw [entryAt_setInq_ne _ _ hne] at hy
  obtain ⟨ndx, hxq, hxa, hxe⟩ := entryAt_iff.mp hx
  obtain ⟨ndy, hyq, hya, hye⟩ := entryAt_iff.mp hy
  have hlt : ∀ n, f.inq[n]? = some (some true) → n < 256 + k := by
    intro n hn
    by_contra hc
    by_cases hn' : n < 511
    · simp [(b.unwritten n (by omega) hn').2] at hn
    · rw [Vector.getElem?_eq_none (by simp [Config.nNode]; omega)] at hn
      cases hn
  have hxn := hlt _ hxq
  have hyn := hlt _ hyq
  have hp : f.queue.Perm (x :: y :: ((f.setInq x.n false).setInq y.n false).queue) := hperm1.trans (hperm2.cons x)
  have hxy : x ≠ y := fun h => hne (by rw [h])
  have hp' : ((f.queue.erase x).erase y).Perm ((f.setInq x.n false).setInq y.n false).queue := by
    have := ((hp.erase x).erase y)
    simpa using this
  have hsum := (hp.map fun e => e.w.toNat).sum_eq
  rw [b.weight] at hsum
  simp only [List.map_cons, List.sum_cons] at hsum
  have hfresh : ((f.setInq x.n false).setInq y.n false).entryAt (256 + k) = none := by
    rw [entryAt_setInq_ne _ _ (by omega), entryAt_setInq_ne _ _ (by omega)]
    unfold Forest.entryAt
    rw [(b.unwritten (256 + k) (by omega) (by omega)).1, (b.unwritten (256 + k) (by omega) (by omega)).2]
  refine ⟨x, y, ndx, ndy, hx, hy, ?_, ?_, hleast, hxa, hya, by rw [hxe], by rw [hye], hxn, hyn, hne.symm, by omega,
    ?_, ?_, ?_, ?_⟩
  · have := hleast y (mem_queue.mpr hy)
    rcases keyLt_total (a := x) (b := y) (Ne.symm hne) with h | h
    · exact h
    · rw [this] at h; cases h
  · intro e he hex
    refine hleast2 e ?_
    have := (hperm1.mem_iff (a := e)).mp he
    simpa [hex] using this
  · rw [combine_eq k h1 h2]; rfl
  · rw [combine_eq k h1 h2]; rfl
  · exact hp.trans ((hp'.symm.cons y).cons x)
  · rw [combine_eq k h1 h2]
    exact (queue_insertNode _ (internalNode x y) (by omega) hfresh).trans ((hp'.symm).cons _)

theorem built_combine {f : Forest} {k : Nat} (hk : k < 255) (b : Built freq k f) : Built freq (k + 1) (combine f k) := by
  obtain ⟨x, y, ndx, ndy, hx, hy, -, -, -, hxa, hya, hxw, hyw, hxn, hyn, hne, hsum, harena, hinq, hp, hq⟩ :=
    combine_spec hk b
  have hfit := freqSum_lt freq
  have hw : (x.w + y.w).toNat = x.w.toNat + y.w.toNat := by
    rw [BitVec.toNat_add]; exact Nat.mod_eq_of_lt (by omega)
  have hxl : (BitVec.ofNat 9 x.n).toNat = x.n := by simp; omega
  have hyl : (BitVec.ofNat 9 y.n).toNat = y.n := by simp; omega
  have hfresh := (b.unwritten (256 + k) (by omega) (by omega)).1
  have hat : ∀ n, n ≠ 256 + k → (combine f k).arena[n]? = f.arena[n]? := by
    intro n hn
    rw [harena, Vector.getElem?_setIfInBounds, if_neg (Ne.symm hn)]
  have hnew : (combine f k).arena[256 + k]? = some (some (internalNode x y)) := by
    rw [harena, Vector.getElem?_setIfInBounds, if_pos rfl, if_pos (by simp [Config.nNode]; omega)]
  have hchild : ∀ p m, HasChild (combine f k).arena p m ↔
      HasChild f.arena p m ∨ (p = 256 + k ∧ (x.n = m ∨ y.n = m)) := by
    intro p m
    rw [harena, hasChild_set (by omega) hfresh rfl]
    simp only [internalNode, hxl, hyl]
  have hinq' : ∀ n, (combine f k).inq[n]? =
      if 256 + k = n then (if n < 511 then some (some true) else none)
      else if y.n = n then (if n < 511 then some (some false) else none)
      else if x.n = n then (if n < 511 then some (some false) else none) else f.inq[n]? := by
    intro n
    simp only [hinq, Vector.getElem?_setIfInBounds, Config.nNode]
    repeat' split
    all_goals first | rfl | omega
  have hparentless : ∀ n, f.inq[n]? = some (some true) → n < 256 + k → ∀ p, ¬ HasChild f.arena p n := by
    intro n h1 h2
    rcases b.queued n h2 with h | h
    · exact h.2
    · rw [h1] at h; cases h.1
  obtain ⟨_, hxq, -⟩ := entryAt_iff.mp hx
  obtain ⟨_, hyq, -⟩ := entryAt_iff.mp hy
  constructor
  · intro n h
    rw [hat n (by omega)]
    exact b.leafNodes n h
  · intro n h h'
    by_cases hn : n = 256 + k
    · subst hn
      refine ⟨internalNode x y, ndx, ndy, hnew, ?_, ?_, rfl, rfl, ?_, ?_, ?_, ?_⟩ <;>
        simp only [internalNode, hxl, hyl]
      · rw [hat _ (by omega)]; exact hxa
      · rw [hat _ (by omega)]; exact hya
      · exact hne
      · exact hxn
      · exact hyn
      · rw [hw, hxw, hyw]
    · obtain ⟨nd, a, c, h1, h2, h3, h4, h5, h6, h7, h8, h9⟩ := b.inner n h (by omega)
      refine ⟨nd, a, c, ?_, ?_, ?_, h4, h5, h6, h7, h8, h9⟩
      · rw [hat _ hn]; exact h1
      · rw [hat _ (by omega)]; exact h2
      · rw [hat _ (by omega)]; exact h3
  · intro n h h'
    obtain ⟨h1, h2⟩ := b.unwritten n (by omega) h'
    refine ⟨by rw [hat _ (by omega)]; exact h1, ?_⟩
    rw [hinq', if_neg (by omega), if_neg (by omega), if_neg (by omega)]
    exact h2
  · intro n h
    rw [hinq']
    by_cases hn : 256 + k = n
    · refine .inl ⟨by rw [if_pos hn, if_pos (by omega)], ?_⟩
      intro p
      rw [hchild]
      rintro (⟨nd, h1, h2, h3⟩ | ⟨-, h3⟩)
      · by_cases hp256 : p < 256
        · rw [b.leafNodes p hp256] at h1
          cases h1
          simp [leafNode] at h2
        · by_cases hpk : p < 256 + k
          · obtain ⟨nd', a, c, h1', -, -, -, -, -, h7, h8, -⟩ := b.inner p (by omega) hpk
            rw [h1'] at h1
            cases h1
            omega
          · by_cases hp511 : p < 511
            · rw [(b.unwritten p (by omega) hp511).1] at h1; cases h1
            · rw [Vector.getElem?_eq_none (by simp [Config.nNode]; omega)] at h1; cases h1
      · omega
    · rw [if_neg hn]
      by_cases hyn' : y.n = n
      · refine .inr ⟨by rw [if_pos hyn', if_pos (by omega)], 256 + k, ?_, ?_⟩
        · rw [hchild]; exact .inr ⟨rfl, .inr hyn'⟩
        · intro q hq'
          rw [hchild] at hq'
          rcases hq' with h1 | h1
          · exact absurd h1 (hparentless n (by rw [← hyn']; exact hyq) (by omega) q)
          · exact h1.1
      · rw [if_neg hyn']
        by_cases hxn' : x.n = n
        · refine .inr ⟨by rw [if_pos hxn', if_pos (by omega)], 256 + k, ?_, ?_⟩
          · rw [hchild]; exact .inr ⟨rfl, .inl hxn'⟩
          · intro q hq'
            rw [hchild] at hq'
            rcases hq' with h1 | h1
            · exact absurd h1 (hparentless n (by rw [← hxn']; exact hxq) (by omega) q)
            · exact h1.1
        · rw [if_neg hxn']
          have hsame : ∀ p, HasChild (combine f k).arena p n ↔ HasChild f.arena p n := by
            intro p
            rw [hchild]
            simp [hxn', hyn']
          simp only [hsame]
          exact b.queued n (by omega)
  · have h1 := hp.length_eq
    have h2 := hq.length_eq
    have h3 := b.size
    simp only [List.length_cons] at h1 h2
    omega
  · have h1 := (hp.map fun e => e.w.toNat).sum_eq
    have h2 := (hq.map fun e => e.w.toNat).sum_eq
    have h3 := b.weight
    simp only [List.map_cons, List.sum_cons] at h1 h2
    omega

/-- Every forest on the way of BUILD is as described (R126). -/
theorem built_steps (freq : Vector Count Config.nLeaf) : ∀ k, k ≤ 255 → Built freq k (buildSteps freq k)
  | 0, _ => built_init
  | k + 1, h => built_combine (by omega) (built_steps freq k (by omega))

theorem built_forest (freq : Vector Count Config.nLeaf) : Built freq 255 (buildForest freq) := by
  unfold buildForest
  exact built_steps freq 255 (Nat.le_refl _)

end Sys2Proof.Machine
end

