-- ==== Sys2Proof/Laws/State.lean ====
section
/-! SUPPORT. One lemma for each field under each update of the state, so that no proof unfolds a record update. -/

namespace Sys2Proof.Machine

variable (s : State)

/-! ### Reset -/

@[simp] theorem reset_freq : (State.reset).freq = Vector.replicate _ 0 := rfl
@[simp] theorem reset_arena : (State.reset).arena = Vector.replicate _ none := rfl
@[simp] theorem reset_inq : (State.reset).inq = Vector.replicate _ none := rfl
@[simp] theorem reset_clen : (State.reset).clen = Vector.replicate _ none := rfl
@[simp] theorem reset_cbits : (State.reset).cbits = Vector.replicate _ none := rfl
@[simp] theorem reset_tv : (State.reset).tv = false := rfl
@[simp] theorem reset_cv : (State.reset).cv = false := rfl
@[simp] theorem reset_den : (State.reset).den = false := rfl
@[simp] theorem reset_dstate : (State.reset).dstate = .atRoot := rfl
@[simp] theorem reset_cur : (State.reset).cur = Config.root := rfl
@[simp] theorem reset_bitpos : (State.reset).bitpos = 0 := rfl
@[simp] theorem reset_ecnt : (State.reset).ecnt = 0 := rfl
@[simp] theorem reset_total : (State.reset).total = 0 := rfl
@[simp] theorem reset_cause : (State.reset).cause = .none := rfl
@[simp] theorem reset_inputs : (State.reset).inputs = [] := rfl
@[simp] theorem reset_responses : (State.reset).responses = [] := rfl
@[simp] theorem reset_out : (State.reset).out = [] := rfl
/-! ### Responses -/

@[simp] theorem respond_freq (st : Status) (ne : Nat) (data : RespData) : (respond st ne data s).freq = s.freq := rfl
@[simp] theorem respond_arena (st : Status) (ne : Nat) (data : RespData) : (respond st ne data s).arena = s.arena := rfl
@[simp] theorem respond_inq (st : Status) (ne : Nat) (data : RespData) : (respond st ne data s).inq = s.inq := rfl
@[simp] theorem respond_clen (st : Status) (ne : Nat) (data : RespData) : (respond st ne data s).clen = s.clen := rfl
@[simp] theorem respond_cbits (st : Status) (ne : Nat) (data : RespData) : (respond st ne data s).cbits = s.cbits := rfl
@[simp] theorem respond_tv (st : Status) (ne : Nat) (data : RespData) : (respond st ne data s).tv = s.tv := rfl
@[simp] theorem respond_cv (st : Status) (ne : Nat) (data : RespData) : (respond st ne data s).cv = s.cv := rfl
@[simp] theorem respond_den (st : Status) (ne : Nat) (data : RespData) : (respond st ne data s).den = s.den := rfl
@[simp] theorem respond_dstate (st : Status) (ne : Nat) (data : RespData) : (respond st ne data s).dstate = s.dstate := rfl
@[simp] theorem respond_cur (st : Status) (ne : Nat) (data : RespData) : (respond st ne data s).cur = s.cur := rfl
@[simp] theorem respond_bitpos (st : Status) (ne : Nat) (data : RespData) : (respond st ne data s).bitpos = s.bitpos := rfl
@[simp] theorem respond_ecnt (st : Status) (ne : Nat) (data : RespData) : (respond st ne data s).ecnt = s.ecnt := rfl
@[simp] theorem respond_total (st : Status) (ne : Nat) (data : RespData) : (respond st ne data s).total = s.total := rfl
@[simp] theorem respond_cause (st : Status) (ne : Nat) (data : RespData) : (respond st ne data s).cause = s.cause := rfl
@[simp] theorem respond_inputs (st : Status) (ne : Nat) (data : RespData) : (respond st ne data s).inputs = s.inputs := rfl
@[simp] theorem respond_responses (st : Status) (ne : Nat) (data : RespData) : (respond st ne data s).responses = s.responses ++ [respWord st ne data] := rfl
@[simp] theorem respond_out (st : Status) (ne : Nat) (data : RespData) : (respond st ne data s).out = s.out := rfl
/-! ### A response word added -/

@[simp] theorem addResponse_freq (rw : RespWord) : (s.addResponse rw).freq = s.freq := rfl
@[simp] theorem addResponse_arena (rw : RespWord) : (s.addResponse rw).arena = s.arena := rfl
@[simp] theorem addResponse_inq (rw : RespWord) : (s.addResponse rw).inq = s.inq := rfl
@[simp] theorem addResponse_clen (rw : RespWord) : (s.addResponse rw).clen = s.clen := rfl
@[simp] theorem addResponse_cbits (rw : RespWord) : (s.addResponse rw).cbits = s.cbits := rfl
@[simp] theorem addResponse_tv (rw : RespWord) : (s.addResponse rw).tv = s.tv := rfl
@[simp] theorem addResponse_cv (rw : RespWord) : (s.addResponse rw).cv = s.cv := rfl
@[simp] theorem addResponse_den (rw : RespWord) : (s.addResponse rw).den = s.den := rfl
@[simp] theorem addResponse_dstate (rw : RespWord) : (s.addResponse rw).dstate = s.dstate := rfl
@[simp] theorem addResponse_cur (rw : RespWord) : (s.addResponse rw).cur = s.cur := rfl
@[simp] theorem addResponse_bitpos (rw : RespWord) : (s.addResponse rw).bitpos = s.bitpos := rfl
@[simp] theorem addResponse_ecnt (rw : RespWord) : (s.addResponse rw).ecnt = s.ecnt := rfl
@[simp] theorem addResponse_total (rw : RespWord) : (s.addResponse rw).total = s.total := rfl
@[simp] theorem addResponse_cause (rw : RespWord) : (s.addResponse rw).cause = s.cause := rfl
@[simp] theorem addResponse_inputs (rw : RespWord) : (s.addResponse rw).inputs = s.inputs := rfl
@[simp] theorem addResponse_responses (rw : RespWord) : (s.addResponse rw).responses = s.responses ++ [rw] := rfl
@[simp] theorem addResponse_out (rw : RespWord) : (s.addResponse rw).out = s.out := rfl
/-! ### The symbol output -/

@[simp] theorem emit_freq (c : Symbol) : (s.emit c).freq = s.freq := rfl
@[simp] theorem emit_arena (c : Symbol) : (s.emit c).arena = s.arena := rfl
@[simp] theorem emit_inq (c : Symbol) : (s.emit c).inq = s.inq := rfl
@[simp] theorem emit_clen (c : Symbol) : (s.emit c).clen = s.clen := rfl
@[simp] theorem emit_cbits (c : Symbol) : (s.emit c).cbits = s.cbits := rfl
@[simp] theorem emit_tv (c : Symbol) : (s.emit c).tv = s.tv := rfl
@[simp] theorem emit_cv (c : Symbol) : (s.emit c).cv = s.cv := rfl
@[simp] theorem emit_den (c : Symbol) : (s.emit c).den = s.den := rfl
@[simp] theorem emit_dstate (c : Symbol) : (s.emit c).dstate = s.dstate := rfl
@[simp] theorem emit_cur (c : Symbol) : (s.emit c).cur = s.cur := rfl
@[simp] theorem emit_bitpos (c : Symbol) : (s.emit c).bitpos = s.bitpos := rfl
@[simp] theorem emit_ecnt (c : Symbol) : (s.emit c).ecnt = s.ecnt := rfl
@[simp] theorem emit_total (c : Symbol) : (s.emit c).total = s.total := rfl
@[simp] theorem emit_cause (c : Symbol) : (s.emit c).cause = s.cause := rfl
@[simp] theorem emit_inputs (c : Symbol) : (s.emit c).inputs = s.inputs := rfl
@[simp] theorem emit_responses (c : Symbol) : (s.emit c).responses = s.responses := rfl
@[simp] theorem emit_out (c : Symbol) : (s.emit c).out = s.out ++ [c] := rfl
/-! ### A write to FREQ -/

@[simp] theorem setFreq_freq (c : Symbol) (v : Count) : (s.setFreq c v).freq = s.freq.set c.toNat v c.isLt := rfl
@[simp] theorem setFreq_arena (c : Symbol) (v : Count) : (s.setFreq c v).arena = s.arena := rfl
@[simp] theorem setFreq_inq (c : Symbol) (v : Count) : (s.setFreq c v).inq = s.inq := rfl
@[simp] theorem setFreq_clen (c : Symbol) (v : Count) : (s.setFreq c v).clen = s.clen := rfl
@[simp] theorem setFreq_cbits (c : Symbol) (v : Count) : (s.setFreq c v).cbits = s.cbits := rfl
@[simp] theorem setFreq_tv (c : Symbol) (v : Count) : (s.setFreq c v).tv = s.tv := rfl
@[simp] theorem setFreq_cv (c : Symbol) (v : Count) : (s.setFreq c v).cv = s.cv := rfl
@[simp] theorem setFreq_den (c : Symbol) (v : Count) : (s.setFreq c v).den = s.den := rfl
@[simp] theorem setFreq_dstate (c : Symbol) (v : Count) : (s.setFreq c v).dstate = s.dstate := rfl
@[simp] theorem setFreq_cur (c : Symbol) (v : Count) : (s.setFreq c v).cur = s.cur := rfl
@[simp] theorem setFreq_bitpos (c : Symbol) (v : Count) : (s.setFreq c v).bitpos = s.bitpos := rfl
@[simp] theorem setFreq_ecnt (c : Symbol) (v : Count) : (s.setFreq c v).ecnt = s.ecnt := rfl
@[simp] theorem setFreq_total (c : Symbol) (v : Count) : (s.setFreq c v).total = s.total := rfl
@[simp] theorem setFreq_cause (c : Symbol) (v : Count) : (s.setFreq c v).cause = s.cause := rfl
@[simp] theorem setFreq_inputs (c : Symbol) (v : Count) : (s.setFreq c v).inputs = s.inputs := rfl
@[simp] theorem setFreq_responses (c : Symbol) (v : Count) : (s.setFreq c v).responses = s.responses := rfl
@[simp] theorem setFreq_out (c : Symbol) (v : Count) : (s.setFreq c v).out = s.out := rfl
/-! ### TV and CV cleared -/

@[simp] theorem clearValid_freq : (s.clearValid).freq = s.freq := rfl
@[simp] theorem clearValid_arena : (s.clearValid).arena = s.arena := rfl
@[simp] theorem clearValid_inq : (s.clearValid).inq = s.inq := rfl
@[simp] theorem clearValid_clen : (s.clearValid).clen = s.clen := rfl
@[simp] theorem clearValid_cbits : (s.clearValid).cbits = s.cbits := rfl
@[simp] theorem clearValid_tv : (s.clearValid).tv = false := rfl
@[simp] theorem clearValid_cv : (s.clearValid).cv = false := rfl
@[simp] theorem clearValid_den : (s.clearValid).den = s.den := rfl
@[simp] theorem clearValid_dstate : (s.clearValid).dstate = s.dstate := rfl
@[simp] theorem clearValid_cur : (s.clearValid).cur = s.cur := rfl
@[simp] theorem clearValid_bitpos : (s.clearValid).bitpos = s.bitpos := rfl
@[simp] theorem clearValid_ecnt : (s.clearValid).ecnt = s.ecnt := rfl
@[simp] theorem clearValid_total : (s.clearValid).total = s.total := rfl
@[simp] theorem clearValid_cause : (s.clearValid).cause = s.cause := rfl
@[simp] theorem clearValid_inputs : (s.clearValid).inputs = s.inputs := rfl
@[simp] theorem clearValid_responses : (s.clearValid).responses = s.responses := rfl
@[simp] theorem clearValid_out : (s.clearValid).out = s.out := rfl
/-! ### The CORRUPT entry -/

@[simp] theorem raiseCorrupt_freq (c : Cause) : (raiseCorrupt c s).freq = s.freq := rfl
@[simp] theorem raiseCorrupt_arena (c : Cause) : (raiseCorrupt c s).arena = s.arena := rfl
@[simp] theorem raiseCorrupt_inq (c : Cause) : (raiseCorrupt c s).inq = s.inq := rfl
@[simp] theorem raiseCorrupt_clen (c : Cause) : (raiseCorrupt c s).clen = s.clen := rfl
@[simp] theorem raiseCorrupt_cbits (c : Cause) : (raiseCorrupt c s).cbits = s.cbits := rfl
@[simp] theorem raiseCorrupt_tv (c : Cause) : (raiseCorrupt c s).tv = s.tv := rfl
@[simp] theorem raiseCorrupt_cv (c : Cause) : (raiseCorrupt c s).cv = s.cv := rfl
@[simp] theorem raiseCorrupt_den (c : Cause) : (raiseCorrupt c s).den = s.den := rfl
@[simp] theorem raiseCorrupt_dstate (c : Cause) : (raiseCorrupt c s).dstate = .corrupt := rfl
@[simp] theorem raiseCorrupt_cur (c : Cause) : (raiseCorrupt c s).cur = s.cur := rfl
@[simp] theorem raiseCorrupt_bitpos (c : Cause) : (raiseCorrupt c s).bitpos = s.bitpos := rfl
@[simp] theorem raiseCorrupt_ecnt (c : Cause) : (raiseCorrupt c s).ecnt = s.ecnt := rfl
@[simp] theorem raiseCorrupt_total (c : Cause) : (raiseCorrupt c s).total = s.total := rfl
@[simp] theorem raiseCorrupt_cause (c : Cause) : (raiseCorrupt c s).cause = c := rfl
@[simp] theorem raiseCorrupt_inputs (c : Cause) : (raiseCorrupt c s).inputs = s.inputs := rfl
@[simp] theorem raiseCorrupt_responses (c : Cause) : (raiseCorrupt c s).responses = s.responses ++ [respWord .errCorrupt 0 0] := rfl
@[simp] theorem raiseCorrupt_out (c : Cause) : (raiseCorrupt c s).out = s.out := rfl
/-! ### Arming the decoder -/

@[simp] theorem armDecoder_freq (total : SymCount) : (armDecoder total s).freq = s.freq := rfl
@[simp] theorem armDecoder_arena (total : SymCount) : (armDecoder total s).arena = s.arena := rfl
@[simp] theorem armDecoder_inq (total : SymCount) : (armDecoder total s).inq = s.inq := rfl
@[simp] theorem armDecoder_clen (total : SymCount) : (armDecoder total s).clen = s.clen := rfl
@[simp] theorem armDecoder_cbits (total : SymCount) : (armDecoder total s).cbits = s.cbits := rfl
@[simp] theorem armDecoder_tv (total : SymCount) : (armDecoder total s).tv = s.tv := rfl
@[simp] theorem armDecoder_cv (total : SymCount) : (armDecoder total s).cv = s.cv := rfl
@[simp] theorem armDecoder_den (total : SymCount) : (armDecoder total s).den = true := rfl
@[simp] theorem armDecoder_dstate (total : SymCount) : (armDecoder total s).dstate = if total = 0 then .done else .atRoot := rfl
@[simp] theorem armDecoder_cur (total : SymCount) : (armDecoder total s).cur = Config.root := rfl
@[simp] theorem armDecoder_bitpos (total : SymCount) : (armDecoder total s).bitpos = 0 := rfl
@[simp] theorem armDecoder_ecnt (total : SymCount) : (armDecoder total s).ecnt = 0 := rfl
@[simp] theorem armDecoder_total (total : SymCount) : (armDecoder total s).total = total := rfl
@[simp] theorem armDecoder_cause (total : SymCount) : (armDecoder total s).cause = .none := rfl
@[simp] theorem armDecoder_inputs (total : SymCount) : (armDecoder total s).inputs = s.inputs := rfl
@[simp] theorem armDecoder_responses (total : SymCount) : (armDecoder total s).responses = s.responses := rfl
@[simp] theorem armDecoder_out (total : SymCount) : (armDecoder total s).out = s.out := rfl
/-! ### The block in its reset state -/

@[simp] theorem blockReset_freq : (blockReset s).freq = Vector.replicate _ 0 := rfl
@[simp] theorem blockReset_arena : (blockReset s).arena = Vector.replicate _ none := rfl
@[simp] theorem blockReset_inq : (blockReset s).inq = Vector.replicate _ none := rfl
@[simp] theorem blockReset_clen : (blockReset s).clen = Vector.replicate _ none := rfl
@[simp] theorem blockReset_cbits : (blockReset s).cbits = Vector.replicate _ none := rfl
@[simp] theorem blockReset_tv : (blockReset s).tv = false := rfl
@[simp] theorem blockReset_cv : (blockReset s).cv = false := rfl
@[simp] theorem blockReset_den : (blockReset s).den = false := rfl
@[simp] theorem blockReset_dstate : (blockReset s).dstate = .atRoot := rfl
@[simp] theorem blockReset_cur : (blockReset s).cur = Config.root := rfl
@[simp] theorem blockReset_bitpos : (blockReset s).bitpos = 0 := rfl
@[simp] theorem blockReset_ecnt : (blockReset s).ecnt = 0 := rfl
@[simp] theorem blockReset_total : (blockReset s).total = 0 := rfl
@[simp] theorem blockReset_cause : (blockReset s).cause = .none := rfl
@[simp] theorem blockReset_inputs : (blockReset s).inputs = s.inputs := rfl
@[simp] theorem blockReset_responses : (blockReset s).responses = s.responses := rfl
@[simp] theorem blockReset_out : (blockReset s).out = s.out := rfl
/-! ### A command word presented -/

@[simp] theorem presentNext_freq (cw : CmdWord) : (presentNext cw s).freq = s.freq := rfl
@[simp] theorem presentNext_arena (cw : CmdWord) : (presentNext cw s).arena = s.arena := rfl
@[simp] theorem presentNext_inq (cw : CmdWord) : (presentNext cw s).inq = s.inq := rfl
@[simp] theorem presentNext_clen (cw : CmdWord) : (presentNext cw s).clen = s.clen := rfl
@[simp] theorem presentNext_cbits (cw : CmdWord) : (presentNext cw s).cbits = s.cbits := rfl
@[simp] theorem presentNext_tv (cw : CmdWord) : (presentNext cw s).tv = s.tv := rfl
@[simp] theorem presentNext_cv (cw : CmdWord) : (presentNext cw s).cv = s.cv := rfl
@[simp] theorem presentNext_den (cw : CmdWord) : (presentNext cw s).den = s.den := rfl
@[simp] theorem presentNext_dstate (cw : CmdWord) : (presentNext cw s).dstate = s.dstate := rfl
@[simp] theorem presentNext_cur (cw : CmdWord) : (presentNext cw s).cur = s.cur := rfl
@[simp] theorem presentNext_bitpos (cw : CmdWord) : (presentNext cw s).bitpos = s.bitpos := rfl
@[simp] theorem presentNext_ecnt (cw : CmdWord) : (presentNext cw s).ecnt = s.ecnt := rfl
@[simp] theorem presentNext_total (cw : CmdWord) : (presentNext cw s).total = s.total := rfl
@[simp] theorem presentNext_cause (cw : CmdWord) : (presentNext cw s).cause = s.cause := rfl
@[simp] theorem presentNext_inputs (cw : CmdWord) : (presentNext cw s).inputs = .command cw :: s.inputs := rfl
@[simp] theorem presentNext_responses (cw : CmdWord) : (presentNext cw s).responses = s.responses := rfl
@[simp] theorem presentNext_out (cw : CmdWord) : (presentNext cw s).out = s.out := rfl
/-! ### The arena and queue that BUILD installs -/

@[simp] theorem installForest_freq (f : Forest) : (s.installForest f).freq = s.freq := rfl
@[simp] theorem installForest_arena (f : Forest) : (s.installForest f).arena = f.arena := rfl
@[simp] theorem installForest_inq (f : Forest) : (s.installForest f).inq = f.inq := rfl
@[simp] theorem installForest_clen (f : Forest) : (s.installForest f).clen = s.clen := rfl
@[simp] theorem installForest_cbits (f : Forest) : (s.installForest f).cbits = s.cbits := rfl
@[simp] theorem installForest_tv (f : Forest) : (s.installForest f).tv = true := rfl
@[simp] theorem installForest_cv (f : Forest) : (s.installForest f).cv = false := rfl
@[simp] theorem installForest_den (f : Forest) : (s.installForest f).den = s.den := rfl
@[simp] theorem installForest_dstate (f : Forest) : (s.installForest f).dstate = s.dstate := rfl
@[simp] theorem installForest_cur (f : Forest) : (s.installForest f).cur = s.cur := rfl
@[simp] theorem installForest_bitpos (f : Forest) : (s.installForest f).bitpos = s.bitpos := rfl
@[simp] theorem installForest_ecnt (f : Forest) : (s.installForest f).ecnt = s.ecnt := rfl
@[simp] theorem installForest_total (f : Forest) : (s.installForest f).total = s.total := rfl
@[simp] theorem installForest_cause (f : Forest) : (s.installForest f).cause = s.cause := rfl
@[simp] theorem installForest_inputs (f : Forest) : (s.installForest f).inputs = s.inputs := rfl
@[simp] theorem installForest_responses (f : Forest) : (s.installForest f).responses = s.responses := rfl
@[simp] theorem installForest_out (f : Forest) : (s.installForest f).out = s.out := rfl

/-! ### The code table that GEN installs -/

@[simp] theorem installCodes_freq (codes : List (Symbol × List Bool)) : (s.installCodes codes).freq = s.freq := rfl
@[simp] theorem installCodes_arena (codes : List (Symbol × List Bool)) : (s.installCodes codes).arena = s.arena := rfl
@[simp] theorem installCodes_inq (codes : List (Symbol × List Bool)) : (s.installCodes codes).inq = s.inq := rfl
@[simp] theorem installCodes_clen (codes : List (Symbol × List Bool)) : (s.installCodes codes).clen = recordLens codes s.clen := rfl
@[simp] theorem installCodes_cbits (codes : List (Symbol × List Bool)) : (s.installCodes codes).cbits = recordBits codes s.cbits := rfl
@[simp] theorem installCodes_tv (codes : List (Symbol × List Bool)) : (s.installCodes codes).tv = s.tv := rfl
@[simp] theorem installCodes_cv (codes : List (Symbol × List Bool)) : (s.installCodes codes).cv = true := rfl
@[simp] theorem installCodes_den (codes : List (Symbol × List Bool)) : (s.installCodes codes).den = s.den := rfl
@[simp] theorem installCodes_dstate (codes : List (Symbol × List Bool)) : (s.installCodes codes).dstate = s.dstate := rfl
@[simp] theorem installCodes_cur (codes : List (Symbol × List Bool)) : (s.installCodes codes).cur = s.cur := rfl
@[simp] theorem installCodes_bitpos (codes : List (Symbol × List Bool)) : (s.installCodes codes).bitpos = s.bitpos := rfl
@[simp] theorem installCodes_ecnt (codes : List (Symbol × List Bool)) : (s.installCodes codes).ecnt = s.ecnt := rfl
@[simp] theorem installCodes_total (codes : List (Symbol × List Bool)) : (s.installCodes codes).total = s.total := rfl
@[simp] theorem installCodes_cause (codes : List (Symbol × List Bool)) : (s.installCodes codes).cause = s.cause := rfl
@[simp] theorem installCodes_inputs (codes : List (Symbol × List Bool)) : (s.installCodes codes).inputs = s.inputs := rfl
@[simp] theorem installCodes_responses (codes : List (Symbol × List Bool)) : (s.installCodes codes).responses = s.responses := rfl
@[simp] theorem installCodes_out (codes : List (Symbol × List Bool)) : (s.installCodes codes).out = s.out := rfl

/-! ### Arriving at a node: what STEP leaves alone -/

@[simp] theorem arrive_freq (n : NodeIdx) (nd : Node) : (arrive n nd s).freq = s.freq := by unfold arrive; split <;> rfl
@[simp] theorem arrive_arena (n : NodeIdx) (nd : Node) : (arrive n nd s).arena = s.arena := by unfold arrive; split <;> rfl
@[simp] theorem arrive_inq (n : NodeIdx) (nd : Node) : (arrive n nd s).inq = s.inq := by unfold arrive; split <;> rfl
@[simp] theorem arrive_clen (n : NodeIdx) (nd : Node) : (arrive n nd s).clen = s.clen := by unfold arrive; split <;> rfl
@[simp] theorem arrive_cbits (n : NodeIdx) (nd : Node) : (arrive n nd s).cbits = s.cbits := by unfold arrive; split <;> rfl
@[simp] theorem arrive_tv (n : NodeIdx) (nd : Node) : (arrive n nd s).tv = s.tv := by unfold arrive; split <;> rfl
@[simp] theorem arrive_cv (n : NodeIdx) (nd : Node) : (arrive n nd s).cv = s.cv := by unfold arrive; split <;> rfl
@[simp] theorem arrive_den (n : NodeIdx) (nd : Node) : (arrive n nd s).den = s.den := by unfold arrive; split <;> rfl
@[simp] theorem arrive_total (n : NodeIdx) (nd : Node) : (arrive n nd s).total = s.total := by unfold arrive; split <;> rfl
@[simp] theorem arrive_cause (n : NodeIdx) (nd : Node) : (arrive n nd s).cause = s.cause := by unfold arrive; split <;> rfl
@[simp] theorem arrive_inputs (n : NodeIdx) (nd : Node) : (arrive n nd s).inputs = s.inputs := by unfold arrive; split <;> rfl
@[simp] theorem arrive_responses (n : NodeIdx) (nd : Node) : (arrive n nd s).responses = s.responses := by unfold arrive; split <;> rfl
@[simp] theorem arrive_bitpos (n : NodeIdx) (nd : Node) : (arrive n nd s).bitpos = s.bitpos + 1 := by unfold arrive; split <;> rfl

/-! ### The predicates that a response does not touch -/

@[simp] theorem respond_active (st : Status) (ne : Nat) (data : RespData) : (respond st ne data s).active = s.active := rfl
@[simp] theorem clearValid_active : s.clearValid.active = s.active := rfl
@[simp] theorem setFreq_active (c : Symbol) (v : Count) : (s.setFreq c v).active = s.active := rfl
theorem respond_eq_addResponse (st : Status) (ne : Nat) (data : RespData) :
    respond st ne data s = s.addResponse (respWord st ne data) := rfl

@[simp] theorem installForest_active (f : Forest) : (s.installForest f).active = s.active := rfl
@[simp] theorem installCodes_active (codes : List (Symbol × List Bool)) : (s.installCodes codes).active = s.active := rfl

theorem active_iff : s.active = true ↔ s.den = true ∧ (s.dstate = .atRoot ∨ s.dstate = .atInternal) := by
  simp [State.active]

end Sys2Proof.Machine
end

