-- ==== Sys2Proof/Laws/Tree.lean ====
section
/-! SUPPORT. The built arena is a strict binary tree (41_tree_builder.md R127), and what holds of paths in any strict
binary tree (42_code_table_generator.md R150, R155, R159). -/

namespace Sys2Proof.Machine

variable {a : Arena}

theorem nodeAt_ok {n : NodeIdx} {nd : Node} : nodeAt a n = .ok nd ↔ a[n.toNat]? = some (some nd) := by
  unfold nodeAt
  split
  · next h => simp [h]
  · next h => simp; exact h nd

theorem nodeAt_error {n : NodeIdx} {e : Fault} (h : nodeAt a n = .error e) : e = .unspecifiedNode := by
  unfold nodeAt at h
  split at h <;> cases h
  rfl

theorem isChild_iff {p c : NodeIdx} : IsChild a p c ↔ HasChild a p.toNat c.toNat := by
  unfold IsChild HasChild
  simp only [nodeAt_ok, BitVec.toNat_inj]

@[simp] theorem leafIdx_toNat (c : Symbol) : (leafIdx c).toNat = c.toNat := by
  unfold leafIdx
  rw [BitVec.toNat_setWidth]
  exact Nat.mod_eq_of_lt (by have := c.isLt; omega)

theorem leafIdx_inj {c d : Symbol} (h : leafIdx c = leafIdx d) : c = d := by
  apply BitVec.eq_of_toNat_eq
  rw [← leafIdx_toNat c, ← leafIdx_toNat d, h]

@[simp] theorem root_toNat : Config.root.toNat = 510 := rfl

/-! ### The tree of BUILD -/

theorem hasChild_index {freq : Vector Count Config.nLeaf} {f : Forest} {k p n : Nat} (b : Built freq k f)
    (h : HasChild f.arena p n) : 256 ≤ p ∧ p < 256 + k ∧ n < p := by
  obtain ⟨nd, h1, h2, h3⟩ := h
  by_cases hp : p < 256
  · rw [b.leafNodes p hp] at h1
    cases h1
    simp [leafNode] at h2
  · by_cases hpk : p < 256 + k
    · obtain ⟨nd', x, y, h1', -, -, -, -, -, h7, h8, -⟩ := b.inner p (by omega) hpk
      rw [h1'] at h1
      cases h1
      omega
    · by_cases hp511 : p < 511
      · rw [(b.unwritten p (by omega) hp511).1] at h1; cases h1
      · rw [Vector.getElem?_eq_none (by simp [Config.nNode]; omega)] at h1; cases h1

/-- The last node written is still an entry: no node over it has been written. -/
theorem queued_last {freq : Vector Count Config.nLeaf} {f : Forest} {k : Nat} (b : Built freq k f) :
    f.inq[256 + k - 1]? = some (some true) := by
  rcases b.queued (256 + k - 1) (by omega) with h | h
  · exact h.1
  · obtain ⟨p, hp, -⟩ := h.2
    have := hasChild_index b hp
    omega

/-- After BUILD exactly one node is an entry of the queue, the root (R24). -/
theorem buildForest_inq (freq : Vector Count Config.nLeaf) (n : Nat) (hn : n < 511) :
    (buildForest freq).inq[n]? = some (some (decide (n = 510))) := by
  have b := built_forest freq
  have hroot := queued_last b
  have hentry : ∀ m, m < 511 → (buildForest freq).inq[m]? = some (some true) →
      ∃ e ∈ (buildForest freq).queue, e.n = m := by
    intro m hm h
    have : ∃ nd, (buildForest freq).arena[m]? = some (some nd) := by
      by_cases h' : m < 256
      · exact ⟨_, b.leafNodes m h'⟩
      · obtain ⟨nd, _, _, h1, -⟩ := b.inner m (by omega) (by omega)
        exact ⟨nd, h1⟩
    obtain ⟨nd, hnd⟩ := this
    exact ⟨⟨nd.w, m⟩, mem_queue.mpr (entryAt_iff.mpr ⟨nd, h, hnd, rfl⟩), rfl⟩
  obtain ⟨e, he, hen⟩ := hentry 510 (by omega) hroot
  obtain ⟨e', hq⟩ := List.length_eq_one_iff.mp b.size
  by_cases h : n = 510
  · subst h; simpa using hroot
  · rcases b.queued n (by omega) with h1 | h1
    · obtain ⟨e2, he2, hen2⟩ := hentry n hn h1.1
      rw [hq, List.mem_singleton] at he he2
      rw [← hen, ← hen2, he, he2] at h
      exact absurd rfl h
    · simpa [h] using h1.1

theorem buildForest_strictTree (freq : Vector Count Config.nLeaf) : StrictTree (buildForest freq).arena where
  leaves c := by
    have b := built_forest freq
    refine ⟨leafNode c.toNat (freq[c.toNat]'c.isLt), ?_, rfl, ?_, rfl, rfl⟩
    · rw [nodeAt_ok, leafIdx_toNat]
      exact b.leafNodes c.toNat c.isLt
    · simp [leafNode]
  internals n h h' := by
    have b := built_forest freq
    obtain ⟨nd, x, y, h1, h2, h3, h4, h5, h6, h7, h8, h9⟩ := b.inner n.toNat h (by omega)
    exact ⟨nd, x, y, nodeAt_ok.mpr h1, nodeAt_ok.mpr h2, nodeAt_ok.mpr h3, h4, h5,
      fun hc => h6 (by rw [hc]), h7, h8, h9⟩
  parents n h := by
    have b := built_forest freq
    rcases b.queued n.toNat (by omega) with h1 | ⟨-, p, hp, huniq⟩
    · have := buildForest_inq freq n.toNat (by omega)
      rw [h1.1] at this
      simp at this
      omega
    · have hi := hasChild_index b hp
      have hpn : (BitVec.ofNat 9 p).toNat = p := by simp; omega
      refine ⟨BitVec.ofNat 9 p, ?_, ?_⟩
      · rw [isChild_iff, hpn]; exact hp
      · intro q hq
        rw [isChild_iff] at hq
        apply BitVec.eq_of_toNat_eq
        rw [hpn, huniq _ hq]
  rootFree p hp := by
    have b := built_forest freq
    rw [isChild_iff] at hp
    have := hasChild_index b hp
    simp at this
    omega

/-- The root weighs the sum of the counts (R127). -/
theorem buildForest_rootWeighs (freq : Vector Count Config.nLeaf) :
    RootWeighs (buildForest freq).arena (freqSum freq) := by
  have b := built_forest freq
  obtain ⟨nd, _, _, h1, -⟩ := b.inner 510 (by omega) (by omega)
  refine ⟨nd, nodeAt_ok.mpr h1, ?_⟩
  obtain ⟨e, hq⟩ := List.length_eq_one_iff.mp b.size
  have hmem : (⟨nd.w, 510⟩ : QueueEntry) ∈ (buildForest freq).queue :=
    mem_queue.mpr (entryAt_iff.mpr ⟨nd, queued_last b, h1, rfl⟩)
  have hw := b.weight
  rw [hq] at hw hmem
  rw [List.mem_singleton] at hmem
  simpa [← hmem] using hw

/-! ### Paths in a strict binary tree -/

/-- The nodes are those the rules number: below 256 a leaf, from 256 to 510 an internal node. -/
theorem StrictTree.leaf_iff (t : StrictTree a) {n : NodeIdx} {nd : Node} (h : nodeAt a n = .ok nd) :
    nd.leaf = true ↔ n.toNat < 256 := by
  by_cases hn : n.toNat < 256
  · obtain ⟨nd', h1, h2, -⟩ := t.leaves (BitVec.ofNat 8 n.toNat)
    have : leafIdx (BitVec.ofNat 8 n.toNat) = n := by
      apply BitVec.eq_of_toNat_eq
      rw [leafIdx_toNat]; simp; omega
    rw [this, h] at h1
    cases h1
    simp [h2, hn]
  · have hn' : n.toNat ≤ 510 := by
      rw [nodeAt_ok] at h
      by_contra hc
      rw [Vector.getElem?_eq_none (by simp [Config.nNode]; omega)] at h
      cases h
    obtain ⟨nd', x, y, h1, -, -, h4, -⟩ := t.internals n (by omega) hn'
    rw [h] at h1
    cases h1
    simp [h4, hn]

theorem walk_append (n : NodeIdx) (p q : List Bool) :
    walk a n (p ++ q) = (walk a n p).bind fun m => walk a m q := by
  induction p generalizing n with
  | nil => rfl
  | cons b bs ih =>
    simp only [List.cons_append, walk]
    split
    · split
      · rfl
      · exact ih _
    · rfl

/-- One edge of a path. -/
theorem walk_one {n m : NodeIdx} {b : Bool} :
    walk a n [b] = some m ↔ ∃ nd, nodeAt a n = .ok nd ∧ nd.leaf = false ∧ m = if b then nd.r else nd.l := by
  simp only [walk]
  split
  · next nd h =>
    rw [h]
    split
    · next hl => simp [hl]
    · next hl =>
      constructor
      · intro h1
        exact ⟨nd, rfl, by simpa using hl, (Option.some.inj h1).symm⟩
      · rintro ⟨nd', h1, -, h3⟩
        cases h1
        rw [h3]
  · next h => rw [h]; simp

/-- A path does not continue below a leaf. -/
theorem walk_leaf {n m : NodeIdx} {nd : Node} {b : Bool} {bs : List Bool} (h : nodeAt a n = .ok nd)
    (hl : nd.leaf = true) : walk a n (b :: bs) ≠ some m := by
  simp [walk, h, hl]

/-- Each edge leads to a lower index. -/
theorem StrictTree.child_lt (t : StrictTree a) {p c : NodeIdx} (h : IsChild a p c) :
    256 ≤ p.toNat ∧ p.toNat ≤ 510 ∧ c.toNat < p.toNat := by
  obtain ⟨nd, h1, h2, h3⟩ := h
  have hp : ¬ p.toNat < 256 := fun hc => by
    have := (t.leaf_iff h1).mpr hc
    rw [h2] at this; cases this
  have hp' : p.toNat ≤ 510 := by
    rw [nodeAt_ok] at h1
    by_contra hc
    rw [Vector.getElem?_eq_none (by simp [Config.nNode]; omega)] at h1
    cases h1
  obtain ⟨nd', x, y, h1', -, -, -, -, -, h6, h7, -⟩ := t.internals p (by omega) hp'
  rw [h1] at h1'
  cases h1'
  rcases h3 with h3 | h3 <;> subst h3 <;> omega

theorem walk_one_isChild {n m : NodeIdx} {b : Bool} (h : walk a n [b] = some m) : IsChild a n m := by
  obtain ⟨nd, h1, h2, h3⟩ := walk_one.mp h
  refine ⟨nd, h1, h2, ?_⟩
  cases b <;> simp_all

/-- The edges of a path are at most its fall in index (R159). -/
theorem StrictTree.walk_length (t : StrictTree a) {n m : NodeIdx} {p : List Bool} (h : walk a n p = some m) :
    m.toNat + p.length ≤ n.toNat ∧ (p ≠ [] → 256 ≤ n.toNat) ∧ (p ≠ [] → max 255 m.toNat + p.length ≤ n.toNat) := by
  induction p generalizing n with
  | nil => cases h; simp
  | cons b bs ih =>
    have h' : (walk a n [b]).bind (fun k => walk a k bs) = some m := by
      rw [← walk_append]; exact h
    obtain ⟨k, hk, hk'⟩ := Option.bind_eq_some_iff.mp h'
    obtain ⟨h1, h2, h3⟩ := t.child_lt (walk_one_isChild hk)
    obtain ⟨i1, i2, i3⟩ := ih hk'
    refine ⟨by simp; omega, fun _ => h1, fun _ => ?_⟩
    by_cases hbs : bs = []
    · subst hbs; cases hk'; simp; omega
    · have := i3 hbs; simp; omega

/-- There is one path from the root to a node (R155 law 1). -/
theorem StrictTree.path_unique (t : StrictTree a) {n : NodeIdx} {p q : List Bool}
    (hp : walk a Config.root p = some n) (hq : walk a Config.root q = some n) : p = q := by
  induction p using List.reverseRecOn generalizing n q with
  | nil =>
    cases hp
    rcases List.eq_nil_or_concat q with rfl | ⟨q', b, rfl⟩
    · rfl
    · rw [List.concat_eq_append, walk_append] at hq
      obtain ⟨k, -, hk⟩ := Option.bind_eq_some_iff.mp hq
      exact absurd (walk_one_isChild hk) (t.rootFree k)
  | append_singleton p b ih =>
    rw [walk_append] at hp
    obtain ⟨k, hk, hkn⟩ := Option.bind_eq_some_iff.mp hp
    have hchild := walk_one_isChild hkn
    rcases List.eq_nil_or_concat q with rfl | ⟨q', b', rfl⟩
    · cases hq
      exact absurd hchild (t.rootFree k)
    · rw [List.concat_eq_append, walk_append] at hq
      obtain ⟨k', hk', hkn'⟩ := Option.bind_eq_some_iff.mp hq
      have hchild' := walk_one_isChild hkn'
      have hlt := t.child_lt hchild
      obtain ⟨par, -, huniq⟩ := t.parents n (by omega)
      have hkk : k' = k := (huniq _ hchild').trans (huniq _ hchild).symm
      subst hkk
      rw [List.concat_eq_append, ih hk hk']
      obtain ⟨nd, h1, h2, h3⟩ := walk_one.mp hkn
      obtain ⟨nd', h1', h2', h3'⟩ := walk_one.mp hkn'
      rw [h1] at h1'
      cases h1'
      obtain ⟨nd', _, _, g1, -, -, -, -, g6, -⟩ := t.internals k' (by omega) (by omega)
      rw [h1] at g1
      cases g1
      have : b = b' := by
        cases b <;> cases b' <;> simp_all
      rw [this]

/-- Every node is on a path from the root (R127). -/
theorem StrictTree.path_exists (t : StrictTree a) (n : NodeIdx) (hn : n.toNat ≤ 510) :
    ∃ p, walk a Config.root p = some n := by
  by_cases hroot : n.toNat = 510
  · exact ⟨[], by simp only [walk, Option.some.injEq]; apply BitVec.eq_of_toNat_eq; simp [hroot]⟩
  · obtain ⟨par, hpar, -⟩ := t.parents n (by omega)
    have hlt := t.child_lt hpar
    obtain ⟨p, hp⟩ := t.path_exists par (by omega)
    obtain ⟨nd, h1, h2, h3⟩ := hpar
    refine ⟨p ++ [!(nd.l == n)], ?_⟩
    rw [walk_append, hp, Option.bind_some, walk_one]
    refine ⟨nd, h1, h2, ?_⟩
    by_cases hl : nd.l = n <;> simp_all
termination_by 510 - n.toNat

/-- Every Symbol has exactly one code, of 1 to 255 bits (R155 laws 1, 2, 6, R159). -/
theorem StrictTree.code_exists (t : StrictTree a) (c : Symbol) :
    ∃ p, IsCode a c p ∧ 1 ≤ p.length ∧ p.length ≤ 255 ∧ ∀ q, IsCode a c q → q = p := by
  obtain ⟨p, hp⟩ := t.path_exists (leafIdx c) (by have := c.isLt; simp; omega)
  have hne : p ≠ [] := by
    rintro rfl
    have h1 : Config.root = leafIdx c := Option.some.inj hp
    have h2 := congrArg BitVec.toNat h1
    rw [leafIdx_toNat, root_toNat] at h2
    have := c.isLt
    omega
  obtain ⟨-, -, h3⟩ := t.walk_length hp
  have := h3 hne
  refine ⟨p, hp, ?_, ?_, fun q hq => t.path_unique hq hp⟩
  · cases p <;> simp_all
  · simp at this; omega

end Sys2Proof.Machine
end

