-- ==== Sys2Proof/Laws/Codes.lean ====
section
/-! SUPPORT. What VISIT and GEN give: on a strict binary tree every Symbol's path, once, and the table that holds it
(42_code_table_generator.md R151, R153, R154). -/

namespace Sys2Proof.Machine

variable {a : Arena}

/-- VISIT from a node lists each leaf below it with the path that leads there, and stops at no fault. -/
theorem StrictTree.visit_spec (t : StrictTree a) (fuel : Nat) (n : NodeIdx) (path : List Bool) (hn : n.toNat ≤ 510)
    (hf : 0 < fuel) (hd : n.toNat ≤ fuel + 254) :
    ∃ l, visit a fuel n path = .ok l ∧
      ∀ c p, (c, p) ∈ l ↔ ∃ q, p = path ++ q ∧ walk a n q = some (leafIdx c) := by
  induction fuel generalizing n path with
  | zero => omega
  | succ fuel ih =>
    by_cases hleaf : n.toNat < 256
    · have hidx : leafIdx (BitVec.ofNat 8 n.toNat) = n := by
        apply BitVec.eq_of_toNat_eq
        rw [leafIdx_toNat]; simp; omega
      obtain ⟨nd, h1, h2, h3, -⟩ := t.leaves (BitVec.ofNat 8 n.toNat)
      rw [hidx] at h1
      refine ⟨[(nd.sym, path)], by simp [visit, h1, h2], fun c p => ?_⟩
      rw [List.mem_singleton, h3]
      constructor
      · intro h
        cases h
        exact ⟨[], by simp, by simp only [walk]; rw [hidx]⟩
      · rintro ⟨q, rfl, hq⟩
        cases q with
        | nil =>
          have hc : leafIdx (BitVec.ofNat 8 n.toNat) = leafIdx c := by rw [hidx]; exact Option.some.inj hq
          rw [leafIdx_inj hc, List.append_nil]
        | cons b bs => exact absurd hq (walk_leaf h1 h2)
    · obtain ⟨nd, x, y, h1, -, -, h2, -, -, h5, h6, -⟩ := t.internals n (by omega) hn
      obtain ⟨left, hl1, hl2⟩ := ih nd.l (path ++ [false]) (by omega) (by omega) (by omega)
      obtain ⟨right, hr1, hr2⟩ := ih nd.r (path ++ [true]) (by omega) (by omega) (by omega)
      refine ⟨left ++ right, by simp [visit, h1, h2, hl1, hr1], fun c p => ?_⟩
      rw [List.mem_append, hl2, hr2]
      constructor
      · rintro (⟨q, rfl, hq⟩ | ⟨q, rfl, hq⟩)
        · exact ⟨false :: q, by simp, by simp [walk, h1, h2, hq]⟩
        · exact ⟨true :: q, by simp, by simp [walk, h1, h2, hq]⟩
      · rintro ⟨q, rfl, hq⟩
        cases q with
        | nil =>
          have h := congrArg BitVec.toNat (Option.some.inj hq)
          rw [leafIdx_toNat] at h
          have := c.isLt
          omega
        | cons b bs =>
          simp only [walk, h1, h2] at hq
          cases b
          · exact .inl ⟨bs, by simp, by simpa using hq⟩
          · exact .inr ⟨bs, by simp, by simpa using hq⟩

/-- VISIT(510, 0) lists every Symbol with its code (R151). -/
theorem StrictTree.visitTree_spec (t : StrictTree a) :
    ∃ l, visitTree a = .ok l ∧ ∀ c p, (c, p) ∈ l ↔ IsCode a c p := by
  obtain ⟨nd, x, y, h1, -, -, h2, -⟩ := t.internals Config.root (by simp) (by simp)
  obtain ⟨l, hl1, hl2⟩ := t.visit_spec 256 Config.root [] (by simp) (by simp) (by simp)
  refine ⟨l, ?_, fun c p => ?_⟩
  · unfold visitTree
    rw [h1]
    simp only [h2]
    exact hl1
  · rw [hl2]
    simp [IsCode]

/-! ### The record of a code -/

@[simp] theorem codeLen_toNat {p : List Bool} (h : p.length ≤ 255) : (codeLen p).toNat = p.length := by
  simp only [codeLen, BitVec.toNat_ofNat]
  exact Nat.mod_eq_of_lt (by omega)

/-- Bit `255 - i` of a left-justified code is its bit `i`, and the bits after the code are 0 (R26). -/
theorem codeBits_getLsbD {p : List Bool} (h : p.length ≤ 256) {i : Nat} (hi : i < 256) :
    (codeBits p).getLsbD (255 - i) = p.getD i false := by
  unfold codeBits
  rw [BitVec.getLsbD_shiftLeft]
  by_cases hp : i < p.length
  · have h1 : ¬ (255 - i < 256 - p.length) := by omega
    have h2 : 255 - i - (256 - p.length) = p.length - 1 - i := by omega
    have h3 : p.length - 1 - i < 256 := by omega
    rw [BitVec.getLsbD_setWidth, h2, BitVec.getLsbD_ofBoolListBE]
    have h4 : p.length - 1 - (p.length - 1 - i) = i := by omega
    simp [h1, h3, h4, show 255 - i < 256 by omega, show p.length - 1 - i < p.length by omega]
  · have h1 : 255 - i < 256 - p.length := by omega
    rw [List.getD_eq_default _ _ (by omega)]
    simp [h1]

/-- Entry `c` after the leaves have been recorded, when `c` occurs with one path only. -/
theorem record_get {β : Type} (g : List Bool → β) (l : List (Symbol × List Bool)) (t : Vector (Option β) 256) (c : Symbol)
    (p : List Bool) (one : ∀ q, (c, q) ∈ l → q = p) :
    (l.foldl (fun t e => t.set e.1.toNat (some (g e.2)) e.1.isLt) t)[c.toNat]'c.isLt =
      if (c, p) ∈ l then some (g p) else t[c.toNat]'c.isLt := by
  induction l generalizing t with
  | nil => simp
  | cons e es ih =>
    simp only [List.foldl_cons]
    rw [ih _ fun q hq => one q (.tail _ hq)]
    by_cases hes : (c, p) ∈ es
    · simp [hes]
    · by_cases hc : e.1 = c
      · have he : e = (c, p) := by
          have := one e.2 (by rw [← hc]; exact .head _)
          rw [← hc, ← this]
        subst he
        simp [hes]
      · have hne : e ≠ (c, p) := fun h => hc (by rw [h])
        have hne' : e.1.toNat ≠ c.toNat := fun h => hc (BitVec.eq_of_toNat_eq h)
        simp [hes, Ne.symm hne, Vector.getElem_set_ne _ _ hne']

/-- GEN on a strict binary tree: CLEN and CBITS hold every Symbol's code, CV is set, the rest is kept (R153, R154). -/
theorem StrictTree.execGen_spec {s : State} (t : StrictTree s.arena) (htv : s.tv = true) :
    ∃ codes, execGen s = answer .ok (s.installCodes codes) ∧
      ∀ c, ∃ p, IsCode s.arena c p ∧ TableHolds (s.installCodes codes) c p := by
  obtain ⟨codes, h1, h2⟩ := t.visitTree_spec
  refine ⟨codes, by simp [execGen, htv, h1], fun c => ?_⟩
  obtain ⟨p, hp, -, hle, huniq⟩ := t.code_exists c
  have hone : ∀ q, (c, q) ∈ codes → q = p := fun q hq => huniq q ((h2 c q).mp hq)
  have hmem : (c, p) ∈ codes := (h2 c p).mpr hp
  have hl := record_get codeLen codes s.clen c p hone
  have hb := record_get codeBits codes s.cbits c p hone
  rw [if_pos hmem] at hl hb
  refine ⟨p, hp, codeLen p, codeBits p, ?_, ?_, codeLen_toNat hle, fun i hi => codeBits_getLsbD (by omega) hi⟩
  · simp only [State.clenAt, installCodes_clen, recordLens, hl]
  · simp only [State.cbitsAt, installCodes_cbits, recordBits, hb]

end Sys2Proof.Machine
end

