-- ==== Sys2Proof/Laws/Decode.lean ====
section
/-! SUPPORT. The fields of an encoded word, and the words of the opcode map. -/

namespace Sys2Proof

/-- Appending bit vectors is positional addition. -/
theorem toNat_append_add {n m : Nat} (x : BitVec n) (y : BitVec m) :
    (x ++ y).toNat = x.toNat * 2 ^ m + y.toNat := by
  rw [BitVec.toNat_append, ← Nat.shiftLeft_add_eq_or_of_lt y.isLt, Nat.shiftLeft_eq]

/-- `op << 44 | a << 32 | d` as a number (R92). -/
theorem cmdWord_toNat (op : BitVec 4) (a : BitVec 8) (d : BitVec 32) :
    (cmdWord op a d).toNat = op.toNat * 2 ^ 44 + a.toNat * 2 ^ 32 + d.toNat := by
  have h : (cmdWord op a d).toNat = (op ++ (0#4 ++ (a ++ d))).toNat := rfl
  rw [h, toNat_append_add, toNat_append_add, toNat_append_add]
  simp
  omega

@[simp] theorem opField_cmdWord (op : BitVec 4) (a : BitVec 8) (d : BitVec 32) : opField (cmdWord op a d) = op := by
  apply BitVec.eq_of_toNat_eq
  simp only [opField, BitVec.extractLsb'_toNat, cmdWord_toNat, Nat.shiftRight_eq_div_pow]
  have := op.isLt; have := a.isLt; have := d.isLt
  omega

@[simp] theorem rsvField_cmdWord (op : BitVec 4) (a : BitVec 8) (d : BitVec 32) : rsvField (cmdWord op a d) = 0 := by
  apply BitVec.eq_of_toNat_eq
  simp only [rsvField, BitVec.extractLsb'_toNat, cmdWord_toNat, Nat.shiftRight_eq_div_pow,
    show (0 : BitVec 4).toNat = 0 from rfl]
  have := op.isLt; have := a.isLt; have := d.isLt
  omega

@[simp] theorem aField_cmdWord (op : BitVec 4) (a : BitVec 8) (d : BitVec 32) : aField (cmdWord op a d) = a := by
  apply BitVec.eq_of_toNat_eq
  simp only [aField, BitVec.extractLsb'_toNat, cmdWord_toNat, Nat.shiftRight_eq_div_pow]
  have := op.isLt; have := a.isLt; have := d.isLt
  omega

@[simp] theorem dField_cmdWord (op : BitVec 4) (a : BitVec 8) (d : BitVec 32) : dField (cmdWord op a d) = d := by
  apply BitVec.eq_of_toNat_eq
  simp only [dField, BitVec.extractLsb'_toNat, cmdWord_toNat, Nat.shiftRight_eq_div_pow]
  have := op.isLt; have := a.isLt; have := d.isLt
  omega

/-- A word is put together again from its fields when `rsv` is 0 (R81). -/
theorem cmdWord_fields (cw : CmdWord) (h : rsvField cw = 0) : cmdWord (opField cw) (aField cw) (dField cw) = cw := by
  apply BitVec.eq_of_toNat_eq
  have h0 : (rsvField cw).toNat = 0 := by rw [h]; rfl
  simp only [rsvField, BitVec.extractLsb'_toNat, Nat.shiftRight_eq_div_pow] at h0
  rw [cmdWord_toNat]
  simp only [opField, aField, dField, BitVec.extractLsb'_toNat, Nat.shiftRight_eq_div_pow]
  have := cw.isLt
  omega

@[simp] theorem idxField_cmdWord (op : BitVec 4) (a : BitVec 8) (n : NodeIdx) :
    idxField (cmdWord op a (n.setWidth 32)) = n := by
  apply BitVec.eq_of_toNat_eq
  simp only [idxField, BitVec.extractLsb'_toNat, cmdWord_toNat, Nat.shiftRight_eq_div_pow, BitVec.toNat_setWidth]
  have := op.isLt; have := a.isLt; have := n.isLt
  omega

@[simp] theorem wField_cmdWord (op : BitVec 4) (a : BitVec 8) (w : BitVec 3) :
    wField (cmdWord op a (w.setWidth 32)) = w := by
  apply BitVec.eq_of_toNat_eq
  simp only [wField, BitVec.extractLsb'_toNat, cmdWord_toNat, Nat.shiftRight_eq_div_pow, BitVec.toNat_setWidth]
  have := op.isLt; have := a.isLt; have := w.isLt
  omega

end Sys2Proof
end

