-- ==== Sys2Proof/Laws/Decoder.lean ====
section
/-! SUPPORT. What STEP does where the decoder is active on a strict binary tree, and what a run of bits does
(43_decoder.md R173, R176, R181). -/

namespace Sys2Proof.Machine

/-- On a strict binary tree each child of an internal node is a node. -/
theorem StrictTree.child_node {a : Arena} (t : StrictTree a) {n : NodeIdx} {here : Node} (h : nodeAt a n = .ok here)
    (hl : here.leaf = false) (v : Bool) :
    ∃ nd, nodeAt a (if v then here.r else here.l) = .ok nd ∧ walk a n [v] = some (if v then here.r else here.l) := by
  have hn : ¬ n.toNat < 256 := fun hc => by
    have := (t.leaf_iff h).mpr hc
    rw [hl] at this; cases this
  have hn' : n.toNat ≤ 510 := by
    rw [nodeAt_ok] at h
    by_contra hc
    rw [Vector.getElem?_eq_none (by simp [Config.nNode]; omega)] at h
    cases h
  obtain ⟨nd, x, y, h1, h2, h3, -⟩ := t.internals n (by omega) hn'
  rw [h] at h1
  cases h1
  cases v
  · exact ⟨x, h2, walk_one.mpr ⟨here, h, hl, rfl⟩⟩
  · exact ⟨y, h3, walk_one.mpr ⟨here, h, hl, rfl⟩⟩

/-- STEP from an internal node of a strict binary tree goes to the child the bit selects. -/
theorem StrictTree.stepBit_spec {s : State} (t : StrictTree s.arena) {here : Node} (h : nodeAt s.arena s.cur = .ok here)
    (hl : here.leaf = false) (v : Bool) :
    ∃ nd, nodeAt s.arena (if v then here.r else here.l) = .ok nd ∧
      stepBit v s = .ok (arrive (if v then here.r else here.l) nd s, if nd.leaf then 1 else 0) := by
  obtain ⟨nd, h1, -⟩ := t.child_node h hl v
  exact ⟨nd, h1, by simp [stepBit, h, hl, h1]⟩

/-- STEP that succeeds has the effect of `arrive` at some node, and counts one Symbol iff that node is a leaf. -/
theorem stepBit_cases {v : Bool} {s t : State} {k : Nat} (h : stepBit v s = .ok (t, k)) :
    ∃ here nd n, nodeAt s.arena s.cur = .ok here ∧ here.leaf = false ∧ n = (if v then here.r else here.l) ∧
      nodeAt s.arena n = .ok nd ∧ t = arrive n nd s ∧ k = if nd.leaf then 1 else 0 := by
  unfold stepBit at h
  split at h
  · cases h
  · next here hh =>
    split at h
    · cases h
    · next hl =>
      simp only at h
      split at h
      · cases h
      · next nd hnd =>
        cases h
        exact ⟨here, nd, _, hh, by simpa using hl, rfl, hnd, rfl, rfl⟩

/-! ### Runs of bits -/

theorem stepBits_done {s : State} (h : s.dstate = .done) (bs : List Bool) : stepBits bs s = .ok (s, 0) := by
  induction bs with
  | nil => rfl
  | cons b bs ih => simp [stepBits, h, ih]

/-- A run of bits is the run of its first part and then the run of the rest. -/
theorem stepBits_append (p q : List Bool) (s : State) :
    stepBits (p ++ q) s =
      match stepBits p s with
      | .error e => .error e
      | .ok (s1, k) =>
        match stepBits q s1 with
        | .error e => .error e
        | .ok (s2, m) => .ok (s2, k + m) := by
  induction p generalizing s with
  | nil => simp only [List.nil_append, stepBits]; split <;> simp_all
  | cons b bs ih =>
    simp only [List.cons_append, stepBits]
    split
    · exact ih s
    · cases hb : stepBit b s with
      | error e => rfl
      | ok r =>
        obtain ⟨s1, k⟩ := r
        simp only [ih]
        cases hbs : stepBits bs s1 with
        | error e => rfl
        | ok r2 =>
          obtain ⟨s2, m⟩ := r2
          simp only
          cases hq : stepBits q s2 with
          | error e => rfl
          | ok r3 => simp [Nat.add_assoc]

/-! ### A whole code -/

/-- What presenting the rest of `c`'s code leaves: `k` bits consumed, `c` emitted, the cursor at the root (R173). -/
def afterCode (c : Symbol) (k : Nat) (s : State) : State :=
  { s.emit c with
    bitpos := s.bitpos + BitVec.ofNat 48 k
    ecnt := s.ecnt + 1
    cur := Config.root
    dstate := if s.ecnt + 1 = s.total then .done else .atRoot }

/-- The bits that lead from an internal node to the leaf of `c` emit `c` and nothing else (R173, R181). -/
theorem StrictTree.stepBits_code {s : State} (t : StrictTree s.arena) {p : List Bool} {c : Symbol}
    (hcur : 256 ≤ s.cur.toNat) (hd : s.dstate ≠ .done) (h : walk s.arena s.cur p = some (leafIdx c)) :
    stepBits p s = .ok (afterCode c p.length s, 1) := by
  induction p generalizing s with
  | nil =>
    have := congrArg BitVec.toNat (Option.some.inj h)
    rw [leafIdx_toNat] at this
    have := c.isLt
    omega
  | cons b bs ih =>
    have h' : (walk s.arena s.cur [b]).bind (fun m => walk s.arena m bs) = some (leafIdx c) := by
      rw [← walk_append]; exact h
    obtain ⟨m, hm, hrest⟩ := Option.bind_eq_some_iff.mp h'
    obtain ⟨here, h1, h2, h3⟩ := walk_one.mp hm
    obtain ⟨nd, h4, h5⟩ := t.stepBit_spec h1 h2 b
    rw [← h3] at h4 h5
    rw [stepBits, if_neg hd, h5]
    by_cases hl : nd.leaf = true
    · have hbs : bs = [] := by
        cases bs with
        | nil => rfl
        | cons b' bs' => exact absurd hrest (walk_leaf h4 hl)
      subst hbs
      have hmc : m = leafIdx c := Option.some.inj hrest
      obtain ⟨nd', g1, -, g3, -⟩ := t.leaves c
      rw [← hmc, h4] at g1
      cases g1
      simp [arrive, hl, afterCode, stepBits, g3]
    · have harr : arrive m nd s = { s with bitpos := s.bitpos + 1, cur := m, dstate := .atInternal } := by
        simp [arrive, hl]
      have hm256 : 256 ≤ m.toNat := by
        by_contra hc
        exact hl ((t.leaf_iff h4).mpr (by omega))
      have := ih (s := arrive m nd s) (by simpa using t) (by rw [harr]; exact hm256) (by rw [harr]; simp)
        (by rw [harr]; exact hrest)
      simp only [this, hl, Bool.false_eq_true, if_false, Nat.zero_add]
      rw [harr]
      have hk : s.bitpos + 1 + BitVec.ofNat 48 bs.length = s.bitpos + BitVec.ofNat 48 (b :: bs).length := by
        apply BitVec.eq_of_toNat_eq
        simp [BitVec.toNat_add]
        omega
      simp only [afterCode, State.emit, hk]

end Sys2Proof.Machine
end

