-- ==== Sys2Proof/Laws/PerInstr.lean ====
section
/-! SUPPORT. Statements made of every command, one lemma a constructor. EncodesItsRow: the encoded word matches the
command's own row of the opcode map (30_encoding.md R83). -/

namespace Sys2Proof.Laws.EncodesItsRow

/-- Some row under the command's mnemonic matches its word. -/
def Statement (i : Instr) : Prop := ∃ r ∈ opcodeMap, r.mnemonic = i.mnemonic ∧ encode i &&& r.mask = r.pattern

theorem getLsbD_cmdWord (op : BitVec 4) (a : BitVec 8) (d : BitVec 32) (i : Nat) :
    (cmdWord op a d).getLsbD i =
      if i < 32 then d.getLsbD i else if i < 40 then a.getLsbD (i - 32) else if i < 44 then false
      else op.getLsbD (i - 44) := by
  have h : (cmdWord op a d).getLsbD i = (op ++ (0#4 ++ (a ++ d))).getLsbD i := rfl
  rw [h]
  simp only [BitVec.getLsbD_append, BitVec.getLsbD_zero]
  repeat' split
  all_goals first | rfl | omega

/-- A mask that covers `op` and `rsv` but not the operand fields `a` and `d[k-1:0]` leaves the bare opcode word. -/
theorem mask_cmdWord (op : BitVec 4) (a : BitVec 8) (d : BitVec 32) (k : Nat) (mask : CmdWord)
    (hd : ∀ i < 32, k ≤ i → d.getLsbD i = false) (lo : ∀ i < 32, i < k → mask.getLsbD i = false)
    (mid : ∀ i < 8, mask.getLsbD (32 + i) = false) (hi : ∀ i < 4, mask.getLsbD (44 + i) = true) :
    cmdWord op a d &&& mask = cmdWord op 0 0 := by
  apply BitVec.eq_of_getLsbD_eq
  intro i hi48
  simp only [BitVec.getLsbD_and, getLsbD_cmdWord]
  split
  · by_cases hk : i < k
    · simp [lo i ‹_› hk]
    · simp [hd i ‹_› (by omega)]
  · split
    · have := mid (i - 32) (by omega)
      rw [show 32 + (i - 32) = i by omega] at this
      simp [this]
    · split
      · simp
      · have := hi (i - 44) (by omega)
        rw [show 44 + (i - 44) = i by omega] at this
        simp [this]

/-- Format A: the mask of a command with one operand `a`. -/
theorem mask_formatA (op : BitVec 4) (a : BitVec 8) : cmdWord op a 0 &&& 0xFF00FFFFFFFF = cmdWord op 0 0 :=
  mask_cmdWord op a 0 0 _ (by simp) (by simp) (by decide) (by decide)

theorem nop : Statement .nop := by unfold Statement; decide
theorem clr : Statement .clr := by unfold Statement; decide
theorem ldf (s : Symbol) (count : Count) : Statement (.ldf s count) :=
  ⟨_, .tail _ (.tail _ (.head _)), rfl,
    mask_cmdWord 2 s count 32 _ (fun _ _ _ => by omega) (by decide) (by decide) (by decide)⟩
theorem rdf (s : Symbol) : Statement (.rdf s) := ⟨_, .tail _ (.tail _ (.tail _ (.head _))), rfl, mask_formatA 3 s⟩
theorem build : Statement .build := by unfold Statement; decide
theorem rdn (sel : BitVec 8) (idx : NodeIdx) : Statement (.rdn sel idx) :=
  ⟨_, .tail _ (.tail _ (.tail _ (.tail _ (.tail _ (.head _))))), rfl,
    mask_cmdWord 5 sel _ 9 _ (fun i _ h => by simp [h]) (by decide) (by decide) (by decide)⟩
theorem gen : Statement .gen := by unfold Statement; decide
theorem rdcl (s : Symbol) : Statement (.rdcl s) :=
  ⟨⟨"RDCL", 0xFF00FFFFFFFF, 0x700000000000⟩, by decide, rfl, mask_formatA 7 s⟩
theorem rdcw (s : Symbol) (w : BitVec 3) : Statement (.rdcw s w) :=
  ⟨⟨"RDCW", 0xFF00FFFFFFF8, 0x800000000000⟩, by decide, rfl,
    mask_cmdWord 8 s _ 3 _ (fun i _ h => by simp [h]) (by decide) (by decide) (by decide)⟩
theorem dstart : Statement .dstart := by unfold Statement; decide
theorem dbit (v : BitVec 8) : Statement (.dbit v) :=
  ⟨⟨"DBIT", 0xFF00FFFFFFFF, 0xA00000000000⟩, by decide, rfl, mask_formatA 10 v⟩
theorem dbyte (x : BitVec 8) : Statement (.dbyte x) :=
  ⟨⟨"DBYTE", 0xFF00FFFFFFFF, 0xB00000000000⟩, by decide, rfl, mask_formatA 11 x⟩
theorem dend : Statement .dend := by unfold Statement; decide
theorem rds (sel : BitVec 8) : Statement (.rds sel) :=
  ⟨⟨"RDS", 0xFF00FFFFFFFF, 0xD00000000000⟩, by decide, rfl, mask_formatA 13 sel⟩

end Sys2Proof.Laws.EncodesItsRow
end

