-- ==== Sys2Proof/Laws/Exec.lean ====
section
/-! SUPPORT. Said once: everything a command can do when it answers a next state, and what a run of bits leaves alone, so
that no proof unfolds the meanings (30_encoding.md R91; 43_decoder.md R171 to R177). -/

namespace Sys2Proof.Machine

/-- A response word as a number (R87). -/
theorem respWord_toNat (st : Status) (ne : Nat) (data : RespData) :
    (respWord st ne data).toNat = st.code.toNat * 2 ^ 60 + (ne % 16) * 2 ^ 56 + data.toNat := by
  have h : (respWord st ne data).toNat = (st.code ++ (BitVec.ofNat 4 ne ++ (0#8 ++ data))).toNat := rfl
  rw [h, toNat_append_add, toNat_append_add, toNat_append_add, BitVec.toNat_ofNat]
  simp
  omega

/-- What STEP and runs of STEP never change, and what they add to OUT. -/
structure BitsOnly (s t : State) (k : Nat) : Prop where
  tv : t.tv = s.tv
  cv : t.cv = s.cv
  den : t.den = s.den
  total : t.total = s.total
  cause : t.cause = s.cause
  freq : t.freq = s.freq
  arena : t.arena = s.arena
  inq : t.inq = s.inq
  clen : t.clen = s.clen
  cbits : t.cbits = s.cbits
  inputs : t.inputs = s.inputs
  responses : t.responses = s.responses
  out : ∃ syms, t.out = s.out ++ syms ∧ syms.length = k

theorem stepBit_bitsOnly {b : Bool} {s t : State} {k : Nat} (h : stepBit b s = .ok (t, k)) : BitsOnly s t k ∧ k ≤ 1 := by
  obtain ⟨here, nd, n, -, -, -, -, rfl, rfl⟩ := stepBit_cases h
  refine ⟨⟨?_, ?_, ?_, ?_, ?_, ?_, ?_, ?_, ?_, ?_, ?_, ?_, ?_⟩, by split <;> omega⟩
  case refine_13 => cases hl : nd.leaf <;> simp [arrive, hl, State.emit]
  all_goals simp

theorem stepBits_bitsOnly {bs : List Bool} {s t : State} {k : Nat} (h : stepBits bs s = .ok (t, k)) :
    BitsOnly s t k ∧ k ≤ bs.length := by
  induction bs generalizing s k with
  | nil => cases h; exact ⟨⟨rfl, rfl, rfl, rfl, rfl, rfl, rfl, rfl, rfl, rfl, rfl, rfl, [], by simp, rfl⟩, Nat.le_refl _⟩
  | cons b bs ih =>
    simp only [stepBits] at h
    split at h
    · exact ⟨(ih h).1, Nat.le_succ_of_le (ih h).2⟩
    · cases hs : stepBit b s with
      | error e => simp [hs] at h
      | ok r =>
        obtain ⟨s1, k1⟩ := r
        simp only [hs] at h
        cases hs2 : stepBits bs s1 with
        | error e => simp [hs2] at h
        | ok r2 =>
          obtain ⟨s2, k2⟩ := r2
          simp only [hs2] at h
          cases h
          obtain ⟨a, ha⟩ := stepBit_bitsOnly hs
          obtain ⟨c, hc⟩ := ih hs2
          obtain ⟨x, hx, rfl⟩ := a.out
          obtain ⟨y, hy, rfl⟩ := c.out
          refine ⟨⟨c.tv.trans a.tv, c.cv.trans a.cv, c.den.trans a.den, c.total.trans a.total, c.cause.trans a.cause,
            c.freq.trans a.freq, c.arena.trans a.arena, c.inq.trans a.inq, c.clen.trans a.clen, c.cbits.trans a.cbits,
            c.inputs.trans a.inputs, c.responses.trans a.responses, x ++ y, ?_, by simp⟩, ?_⟩
          · rw [hy, hx, List.append_assoc]
          · simp only [List.length_cons]; omega

/-! ### Inversion: the ways a command ends -/

theorem dbit_cases {v : BitVec 8} {s t : State} (h : exec (.dbit v) s = .next t) :
    (s.den = false ∧ t = respond .errSeq 0 0 s) ∨
    (s.den = true ∧ s.dstate = .done ∧ t = respond .ok 0 0 s) ∨
    (s.den = true ∧ s.dstate = .corrupt ∧ t = respond .errCorrupt 0 0 s) ∨
    (s.active = true ∧ ∃ b u k, bitValue v = some b ∧ stepBit b s = .ok (u, k) ∧ t = respond .ok k 0 u) ∨
    (s.active = true ∧ bitValue v = none ∧ t = raiseCorrupt .invalidBit s) := by
  simp only [exec, execDbit] at h
  split at h
  · next hden =>
    split at h
    · cases h; simp_all
    · cases h; simp_all
    all_goals
      next hd =>
      have ha : s.active = true := by simp [active_iff, hden, hd]
      split at h
      · next b hb =>
        cases hs : stepBit b s with
        | error e => simp [hs, answerBits] at h
        | ok r =>
          simp only [hs, answerBits] at h
          cases h
          exact .inr (.inr (.inr (.inl ⟨ha, b, r.1, r.2, hb, hs, rfl⟩)))
      · next hb => cases h; exact .inr (.inr (.inr (.inr ⟨ha, hb, rfl⟩)))
  · cases h; simp_all

theorem dbyte_cases {x : BitVec 8} {s t : State} (h : exec (.dbyte x) s = .next t) :
    (s.den = false ∧ t = respond .errSeq 0 0 s) ∨
    (s.den = true ∧ s.dstate = .corrupt ∧ t = respond .errCorrupt 0 0 s) ∨
    (s.den = true ∧ s.dstate ≠ .corrupt ∧ ∃ u k, stepBits (byteBits x) s = .ok (u, k) ∧ t = respond .ok k 0 u) := by
  simp only [exec, execDbyte] at h
  split at h
  · next hden =>
    split at h
    · cases h; simp_all
    · next hd =>
      cases hs : stepBits (byteBits x) s with
      | error e => simp [hs, answerBits] at h
      | ok r =>
        simp only [hs, answerBits] at h
        cases h
        exact .inr (.inr ⟨hden, hd, r.1, r.2, rfl, rfl⟩)
  · cases h; simp_all

theorem dend_cases {s t : State} (h : exec .dend s = .next t) :
    (s.den = false ∧ t = respond .errSeq 0 0 s) ∨
    (s.den = true ∧ s.dstate = .done ∧ t = respond .ok 0 0 s) ∨
    (s.den = true ∧ s.dstate = .corrupt ∧ t = respond .errCorrupt 0 0 s) ∨
    (s.den = true ∧ s.dstate = .atInternal ∧ t = raiseCorrupt .truncMidCode s) ∨
    (s.den = true ∧ s.dstate = .atRoot ∧ t = raiseCorrupt .truncAtRoot s) := by
  simp only [exec, execDend] at h
  split at h
  · split at h <;> cases h <;> simp_all
  · cases h; simp_all

/-- What a command other than DBIT, DBYTE and DEND leaves when it answers a next state: the state as it was with one
response more, or the one write that the command is there for. -/
theorem exec_cases {i : Instr} {s t : State} (h : exec i s = .next t) :
    (∃ st data, t = respond st 0 data s ∧ (st ≠ .ok → data = 0)) ∨
    (i = .clr ∧ t = respond .ok 0 0 (blockReset s)) ∨
    (∃ c count, i = .ldf c count ∧ s.active = false ∧ t = respond .ok 0 0 (s.setFreq c count).clearValid) ∨
    (i = .build ∧ s.active = false ∧ t = respond .ok 0 0 (s.installForest (buildForest s.freq))) ∨
    (i = .gen ∧ ∃ codes, s.tv = true ∧ visitTree s.arena = .ok codes ∧ t = respond .ok 0 0 (s.installCodes codes)) ∨
    (i = .dstart ∧ ∃ root, s.tv = true ∧ nodeAt s.arena Config.root = .ok root ∧
      t = respond .ok 0 0 (armDecoder root.w s)) ∨
    (∃ v, i = .dbit v) ∨ (∃ x, i = .dbyte x) ∨ i = .dend := by
  cases i with
  | dbit v => simp
  | dbyte x => simp
  | dend => simp
  | nop => cases h; exact .inl ⟨_, _, rfl, by simp⟩
  | rdf c => cases h; exact .inl ⟨_, _, rfl, by simp⟩
  | clr => cases h; exact .inr (.inl ⟨rfl, rfl⟩)
  | ldf c count =>
    simp only [exec, execLdf] at h
    split at h <;> cases h
    · exact .inl ⟨_, _, rfl, by simp⟩
    · exact .inr (.inr (.inl ⟨c, count, rfl, by simp_all, rfl⟩))
  | build =>
    simp only [exec, execBuild] at h
    split at h <;> cases h
    · exact .inl ⟨_, _, rfl, by simp⟩
    · exact .inr (.inr (.inr (.inl ⟨rfl, by simp_all, rfl⟩)))
  | rdn sel idx =>
    simp only [exec, execRdn] at h
    repeat' split at h
    all_goals first | (cases h; done) | (cases h; exact .inl ⟨_, _, rfl, by simp⟩)
  | gen =>
    simp only [exec, execGen] at h
    split at h
    · next htv =>
      split at h
      · next codes hc => cases h; exact .inr (.inr (.inr (.inr (.inl ⟨rfl, codes, htv, hc, rfl⟩))))
      · cases h
    · cases h; exact .inl ⟨_, _, rfl, by simp⟩
  | rdcl c =>
    simp only [exec, execRdcl] at h
    repeat' split at h
    all_goals first | (cases h; done) | (cases h; exact .inl ⟨_, _, rfl, by simp⟩)
  | rdcw c w =>
    simp only [exec, execRdcw] at h
    repeat' split at h
    all_goals first | (cases h; done) | (cases h; exact .inl ⟨_, _, rfl, by simp⟩)
  | dstart =>
    simp only [exec, execDstart] at h
    split at h
    · next htv =>
      split at h
      · next root hr => cases h; exact .inr (.inr (.inr (.inr (.inr (.inl ⟨rfl, root, htv, hr, rfl⟩)))))
      · cases h
    · cases h; exact .inl ⟨_, _, rfl, by simp⟩
  | rds sel =>
    simp only [exec, execRds] at h
    split at h <;> cases h <;> exact .inl ⟨_, _, rfl, by simp⟩

end Sys2Proof.Machine
end

