-- ==== Sys2Proof/Tests/Slice0.lean ====
section
/-! SUPPORT. The model's own tests. Each expected value is taken from 95_test_vectors.md (the vector is named) or worked out
by hand from the rule named; the second half shows, for each obligation with hypotheses, a state that meets them. -/

open Sys2Proof Sys2Proof.Machine

-- The tests are elaborated one after another: many kernel evaluations at once would exhaust the memory limit.
set_option Elab.async false

namespace Sys2Proof.Tests

/-! ### Well-formedness: each check refuses an ill-formed command (R89) -/

theorem test_wellFormed_rdn_selector : (Instr.rdn 2 0).wellFormed = false := by decide
theorem test_wellFormed_rdn_index : (Instr.rdn 0 511).wellFormed = false := by decide
theorem test_wellFormed_rds_selector : (Instr.rds 4).wellFormed = false := by decide
theorem test_wellFormed_accepts : (Instr.rdn 1 510).wellFormed = true ∧ (Instr.rds 3).wellFormed = true := by decide

/-! ### Decoding: a word of each command, the operands as V1, V5, V8 and V9 write them -/

theorem test_decode_nop : decode 0x000000000000 = .ok .nop := by decide
theorem test_decode_clr : decode 0x100000000000 = .ok .clr := by decide
/-- Format AD bit by bit: op 0010, rsv 0000, a = 65, d = 5 (R82). -/
theorem test_decode_ldf : decode 0b001000000100000100000000000000000000000000000101 = .ok (.ldf 65 5) := by decide
theorem test_decode_rdf : decode 0x304100000000 = .ok (.rdf 65) := by decide
theorem test_decode_build : decode 0x400000000000 = .ok .build := by decide
/-- Format AI bit by bit: op 0101, rsv 0000, a = 1, d[8:0] = 510 (R82, R84). -/
theorem test_decode_rdn : decode 0b010100000000000100000000000000000000000111111110 = .ok (.rdn 1 510) := by decide
theorem test_decode_gen : decode 0x600000000000 = .ok .gen := by decide
/-- Format A bit by bit: op 0111, rsv 0000, a = 67, d = 0 (R82). -/
theorem test_decode_rdcl : decode 0b011100000100001100000000000000000000000000000000 = .ok (.rdcl 67) := by decide
/-- Format AW bit by bit: op 1000, rsv 0000, a = 0, d[2:0] = 7 (R82, R84). -/
theorem test_decode_rdcw : decode 0b100000000000000000000000000000000000000000000111 = .ok (.rdcw 0 7) := by decide
/-- Format N bit by bit: op 1001, all else 0 (R82). -/
theorem test_decode_dstart : decode 0b100100000000000000000000000000000000000000000000 = .ok .dstart := by decide
theorem test_decode_dbit : decode 0xA03000000000 = .ok (.dbit 0x30) := by decide
theorem test_decode_dbyte : decode 0xB0F600000000 = .ok (.dbyte 0xF6) := by decide
theorem test_decode_dend : decode 0xC00000000000 = .ok .dend := by decide
theorem test_decode_rds : decode 0xD00300000000 = .ok (.rds 3) := by decide

/-- The illegal words of V9. -/
theorem test_decode_rejects :
    decode 0xE00000000000 = .error .reservedOpcode ∧ decode 0xF00000000000 = .error .reservedOpcode ∧
    decode 0x010000000000 = .error .reservedBits ∧ decode 0x000100000000 = .error .operandBits ∧
    decode 0x000000000001 = .error .operandBits ∧ decode 0x800000000008 = .error .operandBits := by decide

theorem test_encode : encode (.ldf 65 5) = 0x204100000005 ∧ encode (.rdn 1 510) = 0x5001000001FE ∧
    encode (.rdcw 67 0) = 0x804300000000 ∧ encode (.dbyte 0xF6) = 0xB0F600000000 := by decide

theorem test_decodeTableWord : decodeTableWord 48 0x204100000005 = some (.ldf 65 5) ∧
    decodeTableWord 48 0xF00000000000 = none ∧ decodeTableWord 64 0 = none := by decide

/-! ### Small states: the top of V1's tree, built by hand -/

def leaf (c : Nat) (w : Weight) : Option Node := some { w := w, l := 0, r := 0, leaf := true, sym := BitVec.ofNat 8 c }

def join (l r : NodeIdx) (w : Weight) : Option Node := some { w := w, l := l, r := r, leaf := false, sym := 0 }

def nodes (ns : List (Nat × Option Node)) : Arena :=
  ns.foldl (fun a e => a.setIfInBounds e.1 e.2) (Vector.replicate _ none)

/-- Nodes 507 to 510 and the leaves of A, B, C as V1 lists them; the all-zero sub-tree below 507 is left out. -/
def topV1 : Arena := nodes [(65, leaf 65 5), (66, leaf 66 3), (67, leaf 67 2), (507, join 505 506 0),
  (508, join 507 67 2), (509, join 508 66 5), (510, join 65 509 10)]

/-- V1 after BUILD, as far as `topV1` goes. -/
def stV1 : State := { State.reset with tv := true, arena := topV1 }

/-- V1 after DSTART. -/
def stArmed : State := { stV1 with den := true, total := 10 }

/-- The last response given. -/
def rwOf : Host.Outcome State Fault Refusal → Option RespWord
  | .next s => s.responses.getLast?
  | .fault _ => none
  | .refused _ => none

/-- A property of the next state. -/
def holds (p : State → Bool) : Host.Outcome State Fault Refusal → Bool
  | .next s => p s
  | .fault _ => false
  | .refused _ => false

/-- The decoder's registers. -/
def dec (d : DState) (cur : NodeIdx) (bitpos : BitPos) (ecnt : SymCount) (c : Cause) (s : State) : Bool :=
  s.dstate == d && s.cur == cur && s.bitpos == bitpos && s.ecnt == ecnt && s.cause == c

/-! ### Control (V9, V6) -/

theorem test_nop : rwOf (exec .nop State.reset) = some 0 := by decide +kernel
theorem test_clr_clears : holds (fun s => !s.tv && !s.den && s.total == 0 && s.arena[510]? == some none) (exec .clr stArmed) = true := by
  decide +kernel
theorem test_clr_keeps_out : holds (fun s => s.out == [65]) (exec .clr { stArmed with out := [65] }) = true := by decide +kernel
theorem test_rds_flags_reset : rwOf (exec (.rds 0) State.reset) = some 0xFF00 := by decide +kernel
/-- V6 after the truncation: CORRUPT, CAUSE 1, CUR 509, TV = 1, DEN = 1. -/
theorem test_rds_flags_corrupt :
    rwOf (exec (.rds 0) { stArmed with dstate := .corrupt, cause := .truncMidCode, cur := 509, bitpos := 8, ecnt := 6 }) =
      some 0xFEAF := by decide +kernel

/-! ### The frequency table (V1, V9) -/

theorem test_ldf : holds (fun s => s.freqAt 65 == 5 && s.freqAt 66 == 0 && !s.tv && !s.cv) (exec (.ldf 65 5) stV1) = true := by
  decide +kernel
theorem test_ldf_busy : rwOf (exec (.ldf 2 1) stArmed) = some 0x3000000000000000 := by decide +kernel
theorem test_rdf : rwOf (exec (.rdf 65) { State.reset with freq := State.reset.freq.set 65 5 }) = some 5 := by decide +kernel

/-! ### The Tree Builder (V1, V5) -/

/-- V1 step 254: leaf 65 and node 509 both weigh 5; the lower index is removed first and is the left child. -/
theorem test_tie_takes_the_lower_index :
    leastKey [⟨5, 65⟩, ⟨5, 509⟩] = some ⟨5, 65⟩ ∧ some (internalNode ⟨5, 65⟩ ⟨5, 509⟩) = join 65 509 10 := by decide
/-- V5 step 252: of 0 (W 1), 1 (W 1), 2 (W 2) and 507 (W 0), node 507 is least; without it, leaf 0. -/
theorem test_least_weight_first :
    leastKey [⟨1, 0⟩, ⟨1, 1⟩, ⟨2, 2⟩, ⟨0, 507⟩] = some ⟨0, 507⟩ ∧ leastKey [⟨1, 0⟩, ⟨1, 1⟩, ⟨2, 2⟩] = some ⟨1, 0⟩ := by decide
/-- R24, R123: an entry of the queue is a node whose bit is 1, and removing it clears the bit. -/
theorem test_queue_bit :
    (Forest.mk topV1 ((Vector.replicate _ (some false)).set 509 (some true))).entryAt 509 = some ⟨5, 509⟩ ∧
    (Forest.mk topV1 (Vector.replicate _ (some false))).entryAt 509 = none := by decide +kernel
theorem test_build_busy : rwOf (exec .build stArmed) = some 0x3000000000000000 := by decide +kernel
theorem test_build_sets_tv : holds (fun s => s.tv && !s.cv && s.responses == [0]) (exec .build State.reset) = true := by
  decide +kernel
theorem test_rdn_structure : rwOf (exec (.rdn 0 510) stV1) = some 0x83FD := by decide +kernel
theorem test_rdn_leaf : rwOf (exec (.rdn 0 65) stV1) = some 0x5040000 ∧ rwOf (exec (.rdn 1 65) stV1) = some 5 := by
  decide +kernel

/-! ### The code table (V1's codes of A, B, C; R151 on a tree of those three leaves) -/

/-- A tree whose only leaves are A = `0`, C = `10`, B = `11`. -/
def stThree : State :=
  { State.reset with tv := true, arena := nodes [(65, leaf 65 5), (66, leaf 66 3), (67, leaf 67 2),
      (509, join 67 66 5), (510, join 65 509 10)] }

theorem test_gen : holds (fun s => s.cv && s.clen[65]? == some (some 1) && s.clen[66]? == some (some 2) &&
    s.cbits[67]? == some (some ((2 : CodeBits) <<< 254)) && s.cbits[66]? == some (some ((3 : CodeBits) <<< 254)) && s.clen[0]? == some none)
    (exec .gen stThree) = true := by decide +kernel
theorem test_gen_needs_tree : rwOf (exec .gen State.reset) = some 0x2000000000000000 := by decide +kernel

/-- V1 after GEN, the entries of C (code `101`) and of Symbol 0 (code `10000000110`) only. -/
def stCodes : State :=
  { stV1 with
    cv := true
    clen := (State.reset.clen.set 67 (some 3)).set 0 (some 11)
    cbits := (State.reset.cbits.set 67 (some ((5 : CodeBits) <<< 253))).set 0 (some ((0x406 : CodeBits) <<< 245)) }

theorem test_rdcl : rwOf (exec (.rdcl 67) stCodes) = some 3 ∧ rwOf (exec (.rdcl 0) stCodes) = some 0xB := by decide +kernel
theorem test_rdcw : rwOf (exec (.rdcw 67 0) stCodes) = some 0xA0000000 ∧ rwOf (exec (.rdcw 0 0) stCodes) = some 0x80C00000 ∧
    rwOf (exec (.rdcw 0 7) stCodes) = some 0 := by decide +kernel

/-! ### The Decoder (V1, V6, V7, V8) -/

theorem test_dstart : holds (fun s => s.den && s.total == 10 && dec .atRoot 510 0 0 .none s) (exec .dstart stV1) = true := by
  decide +kernel
/-- V2: a declared count of 0 is DONE at once. -/
theorem test_dstart_empty :
    holds (dec .done 510 0 0 .none) (exec .dstart { State.reset with tv := true, arena := nodes [(510, join 508 509 0)] }) = true := by
  decide +kernel
/-- V1 bit 7: from CUR 509 the bit 1 reaches the leaf of B. -/
theorem test_dbit_emits :
    holds (fun s => s.out == [66] && s.responses == [0x0100000000000000] && dec .atRoot 510 7 6 .none s)
      (exec (.dbit 1) { stArmed with dstate := .atInternal, cur := 509, bitpos := 6, ecnt := 5 }) = true := by decide +kernel
/-- V8: the character '0' is no bit. -/
theorem test_dbit_invalid :
    holds (fun s => s.responses == [0x5000000000000000] && dec .corrupt 509 1 0 .invalidBit s)
      (exec (.dbit 0x30) { stArmed with dstate := .atInternal, cur := 509, bitpos := 1 }) = true := by decide +kernel
/-- V1: `DBYTE 0x07` emits AAAAAB and stops at 509. -/
theorem test_dbyte :
    holds (fun s => s.out == [65, 65, 65, 65, 65, 66] && s.responses == [0x0600000000000000] && dec .atInternal 509 8 6 .none s)
      (exec (.dbyte 0x07) stArmed) = true := by decide +kernel
/-- V1: `DBYTE 0x80` ends the decode at its first bit; the seven bits after it are not counted. -/
theorem test_dbyte_padding :
    holds (fun s => s.out == [67] && s.responses == [0x0100000000000000] && dec .done 510 17 10 .none s)
      (exec (.dbyte 0x80) { stArmed with dstate := .atInternal, cur := 508, bitpos := 16, ecnt := 9 }) = true := by decide +kernel
/-- V6: truncation inside a code. -/
theorem test_dend_mid_code :
    holds (fun s => s.responses == [0x5000000000000000] && s.out == [] && dec .corrupt 509 8 6 .truncMidCode s)
      (exec .dend { stArmed with dstate := .atInternal, cur := 509, bitpos := 8, ecnt := 6 }) = true := by decide +kernel
/-- V7: truncation on a code boundary. -/
theorem test_dend_at_root :
    holds (dec .corrupt 510 9 7 .truncAtRoot) (exec .dend { stArmed with bitpos := 9, ecnt := 7 }) = true := by decide +kernel

/-! ### The port -/

/-- The very next step runs the word placed, from reset (V9: `DSTART` with TV = 0 is ERR_SEQ). -/
theorem test_step_runs_word : rwOf (step (State.reset.withFetchWord 48 0x900000000000)) = some 0x2000000000000000 := by
  decide +kernel
theorem test_step_illegal : rwOf (step (State.reset.withFetchWord 48 0x800000000008)) = some 0x1000000000000000 := by
  decide +kernel

/-! ## Witnesses: for each obligation with hypotheses, states and operands that meet them together -/

/-! ### Built trees: V1's table (A:5, B:3, C:2), built, armed, done and corrupt -/

/-- V1's counts. -/
def freqV1 : Vector Count Config.nLeaf := ((Vector.replicate _ 0).set 65 5).set 66 3 |>.set 67 2

theorem freqV1_sum : freqSum freqV1 = 10 := by decide +kernel

/-- The tree of BUILD over a table, nothing else having happened. -/
def stBuilt (freq : Vector Count Config.nLeaf) : State := { State.reset with freq := freq }.installForest (buildForest freq)

theorem stBuilt_inv (freq : Vector Count Config.nLeaf) : Inv (stBuilt freq) where
  codesNeedTree h := by simp [stBuilt] at h
  activeNeedsTree _ := by simp [stBuilt]
  activeCursor h := by simp [stBuilt, State.active] at h
  atRoot h := by simp [stBuilt] at h
  atInternal h := by simp [stBuilt] at h
  doneState h := by simp [stBuilt] at h
  corruptCause := by simp [stBuilt]
  notEnabled _ := by simp [stBuilt]
  strictTree _ := by rw [stBuilt, installForest_arena]; exact buildForest_strictTree freq
  bitsCoverSymbols h := by simp [stBuilt] at h
  treeOfFreq _ := by rw [stBuilt, installForest_arena, installForest_inq, installForest_freq]; exact ⟨rfl, rfl⟩
  codesOfTree h := by simp [stBuilt] at h
  totalOfTree h := by simp [stBuilt, State.active] at h
  cursorInternal := by simp [stBuilt]
  bitsBounded h := by simp [stBuilt] at h
  symbolsBounded h := by simp [stBuilt] at h

theorem stBuilt_arena (freq : Vector Count Config.nLeaf) : (stBuilt freq).arena = (buildForest freq).arena := by
  rw [stBuilt, installForest_arena]

/-- DSTART on the tree of a table whose counts add up to `n`. -/
def stStarted (freq : Vector Count Config.nLeaf) (n : SymCount) : State := armDecoder n (stBuilt freq)

theorem stStarted_inv (freq : Vector Count Config.nLeaf) (n : SymCount) (hn : n.toNat = freqSum freq) :
    Inv (stStarted freq n) := by
  have arena : (stStarted freq n).arena = (buildForest freq).arena := by rw [stStarted, armDecoder_arena, stBuilt_arena]
  have hz : (n = 0) ↔ n.toNat = 0 := ⟨fun h => by rw [h]; rfl, fun h => BitVec.eq_of_toNat_eq h⟩
  constructor
  · intro h; simp [stStarted, stBuilt] at h
  · intro _; simp [stStarted, stBuilt]
  · intro h
    obtain ⟨nd, _, _, h1, -, -, h2, -⟩ := (buildForest_strictTree freq).internals Config.root (by simp) (by simp)
    have h0 : n ≠ 0 := fun h0 => by simp [stStarted, State.active, h0] at h
    refine ⟨⟨nd, by rw [arena]; simpa [stStarted] using h1, h2⟩, ?_, by simp [stStarted]⟩
    have := mt hz.mpr h0
    simp [stStarted]; omega
  · intro _ _; simp [stStarted]
  · intro _ h; simp [stStarted] at h; split at h <;> cases h
  · intro _ h; simp [stStarted] at h; simp [stStarted, h]
  · simp only [stStarted, armDecoder_dstate, armDecoder_cause]; split <;> simp
  · intro h; simp [stStarted] at h
  · intro _; rw [arena]; exact buildForest_strictTree freq
  · intro _; simp [stStarted]
  · intro _
    rw [arena, stStarted, armDecoder_inq, armDecoder_freq, stBuilt, installForest_inq, installForest_freq]
    exact ⟨rfl, rfl⟩
  · intro h; simp [stStarted, stBuilt] at h
  · intro _
    rw [arena, stStarted, armDecoder_total, hn]
    exact buildForest_rootWeighs freq
  · simp [stStarted]
  · intro _; simp [stStarted]
  · intro _
    by_cases h0 : n = 0
    · right; simp [stStarted, h0]
    · left; have := mt hz.mpr h0; simp [stStarted]; omega

theorem stStarted_active (freq : Vector Count Config.nLeaf) (n : SymCount) (h : n ≠ 0) : (stStarted freq n).active = true := by
  have h' : ¬ n = 0#40 := h
  rw [active_iff]; simp [stStarted, h']

/-! ### Encoding and the step -/

/-- EncodeOfDecodeIsTheWord, WordSpellsACommandIffItsRowMatches clauses 1 and 2: a word, its command, its row. -/
theorem witness_word_row : decode 0x204100000005 = .ok (.ldf 65 5) ∧
    (⟨"LDF", 0xFF0000000000, 0x200000000000⟩ : OpcodeRow) ∈ opcodeMap ∧
    (0x204100000005 : CmdWord) &&& 0xFF0000000000 = 0x200000000000 := by decide

/-- WordSpellsACommandIffItsRowMatches clause 3, at the greatest word of the last row: two rows that match it. -/
theorem witness_one_row : ∃ r ∈ opcodeMap, ∃ q ∈ opcodeMap,
    (0xD0FF00000000 : CmdWord) &&& r.mask = r.pattern ∧ (0xD0FF00000000 : CmdWord) &&& q.mask = q.pattern := by decide

/-- StepRunsTheDecodedCommand, NextCommandIs: a word at the head of the port. -/
theorem witness_next_command : (State.reset.withFetchWord 48 0x204100000005).inputs = .command 0x204100000005 :: [] ∧
    decode 0x204100000005 = .ok (.ldf 65 5) := by decide +kernel

/-- FetchWordIsRunNext, at the greatest legal word. -/
theorem witness_fetch : 0xD0FF00000000 < 2 ^ 48 ∧ decodeTableWord 48 0xD0FF00000000 = some (.rds 0xFF) := by decide

/-- IllegalWordIsAnsweredAndChangesNothing, on each ground: `op` 0xE and 0xF, `rsv`, an operand bit; the least and the
greatest such word. -/
theorem witness_illegal (s : State) (cw : CmdWord) : ({ s with inputs := [.command cw] } : State).inputs = .command cw :: [] := rfl

theorem witness_illegal_opcode : (∀ r ∈ opcodeMap, (0xE00000000000 : CmdWord) &&& r.mask ≠ r.pattern) ∧
    ∀ r ∈ opcodeMap, (0xFFFFFFFFFFFF : CmdWord) &&& r.mask ≠ r.pattern := by decide

theorem witness_illegal_bits : (∀ r ∈ opcodeMap, (0x010000000000 : CmdWord) &&& r.mask ≠ r.pattern) ∧
    (∀ r ∈ opcodeMap, (0x000000000001 : CmdWord) &&& r.mask ≠ r.pattern) ∧
    ∀ r ∈ opcodeMap, (0x800000000008 : CmdWord) &&& r.mask ≠ r.pattern := by decide

/-- IdleHoldsAndResetResets: nothing presented; the reset signal presented. -/
theorem witness_idle_reset : State.reset.inputs = [] ∧ ({ stV1 with inputs := [.reset] } : State).inputs = .reset :: [] := by
  decide +kernel

/-- ResponseWordLayout, at the greatest `ne`. -/
theorem witness_response : (8 : Nat) ≤ 8 ∧ stField (respWord .ok 8 0) = 0 := by decide

/-! ### The frequency table and the Tree Builder -/

/-- LdfWritesOneCount, BuildRunsInitAndAllCombines, ActiveDecodeLocksTheTree: an active state and one that is not. -/
theorem witness_active : stArmed.active = true ∧ stV1.active = false := by decide +kernel

/-- CombineJoinsTheTwoLeastKeys, EqualCountsGiveTheCompleteTree and QueueShrinksByOneEachStep: the first and last step, and
after the last; CombineJoinsTheTwoLeastKeys's last clauses: a queued node other than those combined. -/
theorem witness_step_numbers : (0 : Nat) < 255 ∧ (254 : Nat) < 255 ∧ (0 : Nat) ≤ 255 ∧ (255 : Nat) ≤ 255 := by decide

theorem witness_queued : Queued (buildSteps freqV1 0) 255 0 ∧ (255 : NodeIdx) ≠ 0 ∧ (255 : NodeIdx) ≠ 1 ∧
    (255 : NodeIdx).toNat ≠ 256 + 0 := by
  have b := built_steps freqV1 0 (by omega)
  have h0 : (buildSteps freqV1 0).inq[255]? = some (some true) := by
    simp [buildSteps, initForest, Config.nNode]
  refine ⟨⟨h0, leafNode 255 freqV1[255], ?_, by decide +kernel⟩, by decide, by decide, by decide⟩
  rw [nodeAt_ok]
  exact b.leafNodes 255 (by omega)

/-- InitMakesTheLeaves, QueueShrinksByOneEachStep, BuildGivesAStrictBinaryTree: the least and greatest node. -/
theorem witness_nodes : (0 : NodeIdx).toNat ≤ 510 ∧ (510 : NodeIdx).toNat ≤ 510 ∧ (255 : NodeIdx).toNat < 256 ∧
    ¬ (256 : NodeIdx).toNat < 256 := by decide

/-- BuildGivesAStrictBinaryTree's last clause: a path from the root of a built arena. -/
theorem witness_path : walk (buildForest freqV1).arena Config.root [] = some Config.root := rfl

/-- BuildDependsOnFreqOnly: two different states with one table, neither active. -/
theorem witness_two_builds : State.reset.freq = ({ State.reset with cur := 256 } : State).freq ∧
    State.reset.active = false ∧ ({ State.reset with cur := 256 } : State).active = false ∧
    State.reset ≠ { State.reset with cur := 256 } := by
  refine ⟨rfl, rfl, rfl, fun h => ?_⟩
  have := congrArg State.cur h
  revert this
  decide

/-- WeightsNeverWrap: a leaf and an internal node of a built arena. -/
theorem witness_weights : (∃ nd, nodeAt (buildForest freqV1).arena 65 = .ok nd) ∧
    ∃ nd, nodeAt (buildForest freqV1).arena 510 = .ok nd ∧ nd.leaf = false := by
  obtain ⟨x, h, -⟩ := (buildForest_strictTree freqV1).leaves 65
  obtain ⟨y, _, _, g, -, -, g', -⟩ := (buildForest_strictTree freqV1).internals 510 (by simp) (by simp)
  exact ⟨⟨x, h⟩, y, g, g'⟩

/-- RdnReturnsTheNode: out of range on each ground; in range with TV = 0; in range with TV = 1 in a state that meets the
invariants, at both selectors and both ends of the index range. -/
theorem witness_rdn : 1 < (2 : BitVec 8).toNat ∧ (511 : NodeIdx) = 511 ∧
    ((1 : BitVec 8).toNat ≤ 1 ∧ (510 : NodeIdx) ≠ 511 ∧ State.reset.tv = false) ∧
    ((0 : BitVec 8).toNat ≤ 1 ∧ (0 : NodeIdx) ≠ 511 ∧ (stBuilt freqV1).tv = true ∧ Inv (stBuilt freqV1)) :=
  ⟨by decide, rfl, ⟨by decide, by decide, rfl⟩, by decide, by decide, by simp [stBuilt], stBuilt_inv freqV1⟩

/-! ### The code table -/

/-- GenWritesEveryCode: TV = 0; TV = 1 over a strict binary tree. -/
theorem witness_gen : State.reset.tv = false ∧ (stBuilt freqV1).tv = true ∧ StrictTree (stBuilt freqV1).arena :=
  ⟨rfl, by simp [stBuilt], by rw [stBuilt_arena]; exact buildForest_strictTree freqV1⟩

/-- RdclReturnsTheLength, RdcwReturnsThePathBits: CV = 0; CV = 1 with C's code `101` of V1 held, its last bit the last bit of
a code. -/
theorem witness_codes : State.reset.cv = false ∧ stCodes.cv = true ∧ TableHolds stCodes 67 [true, false, true] :=
  ⟨rfl, rfl, 3, (5 : CodeBits) <<< 253, by decide +kernel, by decide +kernel, rfl, by decide +kernel⟩

/-- The same at the greatest code length, 255 bits. -/
theorem witness_longest_code :
    TableHolds { stCodes with clen := State.reset.clen.set 0 (some 255), cbits := State.reset.cbits.set 0 (some 2) } 0
      (List.replicate 254 false ++ [true]) :=
  ⟨255, 2, by decide +kernel, by decide +kernel, by decide +kernel, by decide +kernel⟩

/-- RdcwReturnsThePathBits's last clauses: the ends of their ranges. -/
theorem witness_slice : (31 : Nat) < 32 ∧ (32 : Nat) ≤ 32 := by decide

/-- EverySymbolHasOneCode, CodesArePrefixFree: a strict binary tree and the codes of two Symbols. -/
theorem witness_two_codes : StrictTree (buildForest freqV1).arena ∧ (65 : Symbol) ≠ 66 ∧
    (∃ p, IsCode (buildForest freqV1).arena 65 p) ∧ ∃ q, IsCode (buildForest freqV1).arena 66 q := by
  have t := buildForest_strictTree freqV1
  obtain ⟨p, hp, -⟩ := t.code_exists 65
  obtain ⟨q, hq, -⟩ := t.code_exists 66
  exact ⟨t, by decide, ⟨p, hp⟩, q, hq⟩

/-- KraftSumIsOne: a strict binary tree with the lengths of its codes. -/
theorem witness_kraft : ∃ len : Symbol → Nat, StrictTree (buildForest freqV1).arena ∧
    ∀ c, ∃ p, IsCode (buildForest freqV1).arena c p ∧ p.length = len c := by
  have t := buildForest_strictTree freqV1
  choose p hp using fun c => t.code_exists c
  exact ⟨fun c => (p c).length, t, fun c => ⟨p c, (hp c).1, rfl⟩⟩

/-- MoreFrequentIsNeverLonger: A occurs more often than B. -/
theorem witness_more_frequent : ∃ p q, IsCode (buildForest freqV1).arena 65 p ∧ IsCode (buildForest freqV1).arena 66 q ∧
    (freqV1[(66 : Symbol).toNat]'(66 : Symbol).isLt).toNat < (freqV1[(65 : Symbol).toNat]'(65 : Symbol).isLt).toNat := by
  obtain ⟨-, -, ⟨p, hp⟩, q, hq⟩ := witness_two_codes
  exact ⟨p, q, hp, hq, by decide +kernel⟩

/-! ### The Decoder -/

/-- DstartArmsTheDecoder: TV = 0; TV = 1 with a root, of weight 10 and of weight 0. -/
theorem witness_dstart : State.reset.tv = false ∧ (∃ root, stV1.tv = true ∧ nodeAt stV1.arena 510 = .ok root ∧ root.w = 10) ∧
    ∃ root, ({ stV1 with arena := nodes [(510, join 508 509 0)] } : State).tv = true ∧
      nodeAt (nodes [(510, join 508 509 0)]) 510 = .ok root ∧ root.w = 0 :=
  ⟨rfl, ⟨⟨10, 65, 509, false, 0⟩, rfl, by rw [nodeAt_ok]; decide +kernel, rfl⟩, ⟨0, 508, 509, false, 0⟩, rfl,
    by rw [nodeAt_ok]; decide +kernel, rfl⟩

/-- DbitTakesOneEdge: from the root, bit 1 leads to an internal node and bit 0 to a leaf. -/
theorem witness_dbit : ∃ here nd nd', stArmed.active = true ∧ nodeAt stArmed.arena stArmed.cur = .ok here ∧
    here.leaf = false ∧ nodeAt stArmed.arena here.r = .ok nd ∧ nd.leaf = false ∧
    nodeAt stArmed.arena here.l = .ok nd' ∧ nd'.leaf = true :=
  ⟨⟨10, 65, 509, false, 0⟩, ⟨5, 508, 66, false, 0⟩, ⟨5, 0, 0, true, 65⟩, rfl, by rw [nodeAt_ok]; decide +kernel, rfl,
    by rw [nodeAt_ok]; decide +kernel, rfl, by rw [nodeAt_ok]; decide +kernel, rfl⟩

/-- DbitCompletesWheneverActive, DbyteIsEightDbits, CountersStayBounded, EveryStepKeepsTheInvariants, NoStepEverStops,
ActiveDecodeLocksTheTree: a state that meets the invariants in an active decode. -/
theorem witness_active_inv : Inv (stStarted freqV1 10) ∧ (stStarted freqV1 10).active = true ∧
    (stStarted freqV1 10).den = true ∧ (stStarted freqV1 10).dstate ≠ .corrupt :=
  ⟨stStarted_inv _ _ freqV1_sum.symm, stStarted_active _ _ (by decide), by simp [stStarted],
    by simp [stStarted]⟩

/-- ActiveDecodeLocksTheTree's second clause, for each command it names. -/
theorem witness_active_accepts : ∀ i ∈ [Instr.dstart, .gen, .nop, .clr, .rdf 255, .rdn 1 510, .rds 3],
    i.WellFormed ∧ (i = .dstart ∨ i = .gen ∨ i = .nop ∨ i = .clr ∨ isRead i) ∧
    ((∀ c, i ≠ .rdcl c) ∧ ∀ c w, i ≠ .rdcw c w) := by
  intro i hi
  simp only [List.mem_cons, List.not_mem_nil, or_false] at hi
  rcases hi with h | h | h | h | h | h | h <;> subst h <;> simp [Instr.WellFormed, Instr.wellFormed, rdnNames, rdsNames, isRead]

/-- InvalidBitEntersCorrupt: the least and greatest code point that is no bit. -/
theorem witness_invalid_bit : stArmed.active = true ∧ 1 < (2 : BitVec 8).toNat ∧ 1 < (255 : BitVec 8).toNat := by decide +kernel

/-- DendEndsTheStream, DoneIgnoresTheBody, CorruptRefusesTheBody: a state for each clause, and the three commands. -/
theorem witness_end_states : State.reset.den = false ∧ stArmed.den = true ∧ stArmed.dstate = .atRoot ∧
    (∀ d : DState, ({ stArmed with dstate := d } : State).den = true ∧ ({ stArmed with dstate := d } : State).dstate = d) ∧
    presentsBody (.dbit 0xFF) ∧ presentsBody (.dbyte 0xFF) ∧ presentsBody .dend :=
  ⟨rfl, rfl, rfl, fun _ => ⟨rfl, rfl⟩, trivial, trivial, trivial⟩

/-- DoneIgnoresTheBody and CorruptRefusesTheBody, second clauses: a step in DONE, one in CORRUPT. -/
theorem witness_end_steps (d : DState) : ∃ t, step { stArmed with dstate := d } = .next t := ⟨_, rfl⟩

/-- Every sequence has a body over a strict binary tree. -/
theorem body_exists {a : Arena} (t : StrictTree a) : ∀ cs : List Symbol, ∃ B, IsBody a cs B
  | [] => ⟨[], .nil⟩
  | c :: cs => by
    obtain ⟨p, hp, -⟩ := t.code_exists c
    obtain ⟨B, hB⟩ := body_exists t cs
    exact ⟨p ++ B, .cons hp hB⟩

/-- DecodeOfEncodedBodyIsTheInput: `AAAAABBBCC` with its counts, its body in single bits and one padding bit after it; and
the empty sequence. -/
theorem witness_round_trip : ∃ body cmds, Inv (stBuilt freqV1) ∧ (stBuilt freqV1).tv = true ∧
    CountsOf (stBuilt freqV1).freq [65, 65, 65, 65, 65, 66, 66, 66, 67, 67] ∧
    IsBody (stBuilt freqV1).arena [65, 65, 65, 65, 65, 66, 66, 66, 67, 67] body ∧
    bodyBits cmds = some (body ++ [false]) := by
  have t := buildForest_strictTree freqV1
  obtain ⟨B, hB⟩ := body_exists t [65, 65, 65, 65, 65, 66, 66, 66, 67, 67]
  have hbits : ∀ l : List Bool, bodyBits (l.map fun b => .dbit (if b then 1 else 0)) = some l := by
    intro l
    induction l with
    | nil => rfl
    | cons b bs ih => simp only [List.map_cons, bodyBits, ih]; cases b <;> rfl
  refine ⟨B, _, stBuilt_inv _, by simp [stBuilt], ?_, by rw [stBuilt_arena]; exact hB, hbits _⟩
  have hfreq : (stBuilt freqV1).freq = freqV1 := by rw [stBuilt, installForest_freq]
  rw [hfreq]
  have h : ∀ n : Fin 256, (freqV1[n.val]).toNat =
      ([65, 65, 65, 65, 65, 66, 66, 66, 67, 67] : List Symbol).count (BitVec.ofFin n) := by decide +kernel
  exact fun c => h c.toFin

theorem witness_round_trip_empty : Inv (stBuilt (Vector.replicate _ 0)) ∧ CountsOf (Vector.replicate _ 0) [] ∧
    IsBody (stBuilt (Vector.replicate _ 0)).arena [] [] ∧ bodyBits [.dbyte 0xFF] = some ([] ++ List.replicate 8 true) :=
  ⟨stBuilt_inv _, by intro c; simp, .nil, by decide⟩

/-- DecoderNeverReadsTheCodeTable: each of its commands answers a next state. -/
theorem witness_decoder_commands : (presentsBody (.dbit 1) ∨ Instr.dbit 1 = .dstart) ∧ (∃ t, exec (.dbit 1) stArmed = .next t) ∧
    (∃ t, exec (.dbyte 7) stArmed = .next t) ∧ (∃ t, exec .dend stArmed = .next t) ∧ ∃ t, exec .dstart stV1 = .next t := by
  have key : ∀ o : Host.Outcome State Fault Refusal, holds (fun _ => true) o = true → ∃ t, o = .next t := by
    intro o h
    cases o with
    | next t => exact ⟨t, rfl⟩
    | fault e => cases h
    | refused e => cases h
  exact ⟨.inl trivial, key _ (by decide +kernel), key _ (by decide +kernel), ⟨_, rfl⟩, key _ (by decide +kernel)⟩

/-! ### Control and the whole machine -/

/-- RdsReturnsTheStatusView: the least selector out of range. -/
theorem witness_rds : 3 < (4 : BitVec 8).toNat := by decide

theorem inv_withInputs {s : State} (h : Inv s) (is : List HostInput) : Inv { s with inputs := is } := by
  obtain ⟨h1, h2, h3, h4, h5, h6, h7, h8, h9, h10, h11, h12, h13, h14, h15, h16⟩ := h
  exact ⟨h1, h2, h3, h4, h5, h6, h7, h8, h9, h10, h11, h12, h13, h14, h15, h16⟩

theorem step_nop (s : State) (is : List HostInput) : ∃ t, step { s with inputs := .command 0 :: is } = .next t := ⟨_, rfl⟩

/-- EveryStepKeepsTheInvariants, OutputIsNeverWithdrawn: a step from a state that meets the invariants, with a tree and a
command presented. -/
theorem witness_step (freq : Vector Count Config.nLeaf) (is : List HostInput) :
    Inv { stBuilt freq with inputs := .command 0 :: is } ∧
    ∃ t, step { stBuilt freq with inputs := .command 0 :: is } = .next t :=
  ⟨inv_withInputs (stBuilt_inv freq) _, step_nop _ _⟩

/-- ClrResetsTheBlock, ResetMeetsTheInvariants: the ends of the arrays. -/
theorem witness_array_ends : (0 : Nat) < 511 ∧ (510 : Nat) < 511 ∧ (0 : Nat) < 256 ∧ (255 : Nat) < 256 := by decide

/-- IllFormedOperandsAreOutOfRange: an ill-formed command on each ground, and a well-formed one that answers. -/
theorem witness_ill_formed : ¬ (Instr.rdn 2 0).WellFormed ∧ ¬ (Instr.rdn 1 511).WellFormed ∧ ¬ (Instr.rds 4).WellFormed ∧
    (Instr.rds 3).WellFormed ∧ ∃ t, exec (.rds 3) State.reset = .next t :=
  ⟨by decide, by decide, by decide, by decide, _, rfl⟩

/-- MissingPrerequisiteIsRefused: reset has TV, CV and DEN at 0, and the greatest well-formed RDN. -/
theorem witness_missing : State.reset.tv = false ∧ State.reset.cv = false ∧ State.reset.den = false ∧
    (Instr.rdn 1 510).WellFormed ∧ (Instr.rdcw 255 7).WellFormed ∧ (Instr.dbit 0xFF).WellFormed := by
  exact ⟨rfl, rfl, rfl, by decide, by decide, by decide⟩

/-- EveryCommandGivesOneResponse, OnlyTheListedCommandsWrite: a command other than CLR that answers, an emission, a refusal. -/
theorem witness_one_response : ∃ t, exec (.ldf 65 5) State.reset = .next t ∧ Instr.ldf 65 5 ≠ .clr ∧ t.freq ≠ State.reset.freq :=
  ⟨_, rfl, by decide, by decide +kernel⟩

/-- RefusedCommandsChangeNothing: a refusal of each status from 2 to 4. -/
theorem witness_refused : ∀ e ∈ [(Instr.dstart, State.reset, Status.errSeq), (.build, stArmed, .errBusy), (.rds 4, State.reset, .errRange)],
    (∃ t, exec e.1 e.2.1 = .next t ∧ t.responses = e.2.1.responses ++ [respWord e.2.2 0 0]) ∧
    1 ≤ (stField (respWord e.2.2 0 0)).toNat ∧ (stField (respWord e.2.2 0 0)).toNat ≤ 4 := by
  intro e he
  simp only [List.mem_cons, List.not_mem_nil, or_false] at he
  rcases he with rfl | rfl | rfl <;> exact ⟨⟨_, rfl, rfl⟩, by decide, by decide⟩

/-- ReadsHaveNoSideEffect: a read that answers. -/
theorem witness_read : isRead (.rdf 65) ∧ ∃ t, exec (.rdf 65) State.reset = .next t := ⟨trivial, _, rfl⟩

end Sys2Proof.Tests
end

/-! Proofs of the scope family: every input is answered (00_scope.md R12). The faults of the model all come from a
missing node, a missing table entry or a childless cursor; the lemmas below rule each of them out on a strict binary
tree with the cursor on an internal node, and follow that through a run of bits. -/

namespace Sys2Proof.Machine

/-! ### Nodes of a strict binary tree -/

/-- Reading a node that the rules number is no fault (R23). -/
theorem StrictTree.node_exists {a : Arena} (t : StrictTree a) {n : NodeIdx} (hn : n.toNat ≤ 510) :
    ∃ nd, nodeAt a n = .ok nd ∧ (256 ≤ n.toNat → nd.leaf = false) := by
  by_cases hleaf : n.toNat < 256
  · obtain ⟨nd, hnd, -⟩ := t.leaves (BitVec.ofNat 8 n.toNat)
    have hidx : leafIdx (BitVec.ofNat 8 n.toNat) = n := by
      apply BitVec.eq_of_toNat_eq
      rw [leafIdx_toNat, BitVec.toNat_ofNat]
      omega
    exact ⟨nd, hidx ▸ hnd, fun h => by omega⟩
  · obtain ⟨nd, _, _, hnd, -, -, hl, -⟩ := t.internals n (by omega) hn
    exact ⟨nd, hnd, fun _ => hl⟩

theorem rdnInRange_index_le {sel : BitVec 8} {idx : NodeIdx} (h : rdnInRange sel idx = true) : idx.toNat ≤ 510 := by
  have hne : idx ≠ 511 := by simpa using (Bool.and_eq_true_iff.mp h).2
  bv_omega

/-! ### Bits of the body -/

/-- The cursor stands on an internal node (R31). -/
def CursorInternal (s : State) : Prop := 256 ≤ s.cur.toNat ∧ s.cur.toNat ≤ 510

/-- The cursor goes to the root at a leaf, and stays at the node where there is none. -/
theorem arrive_cur (n : NodeIdx) (nd : Node) (s : State) :
    (arrive n nd s).cur = if nd.leaf then Config.root else n := by
  unfold arrive
  split <;> rfl

/-- STEP from an internal node meets no fault and leaves the cursor on an internal node of the same arena (R173). -/
theorem StrictTree.stepBit_answers {s : State} (t : StrictTree s.arena) (hcur : CursorInternal s) (b : Bool) :
    ∃ u k, stepBit b s = .ok (u, k) ∧ u.arena = s.arena ∧ CursorInternal u := by
  obtain ⟨here, hhere, hinner⟩ := t.node_exists hcur.2
  have hl := hinner hcur.1
  obtain ⟨nd, hnd, hstep⟩ := t.stepBit_spec hhere hl b
  obtain ⟨-, -, hwalk⟩ := t.child_node hhere hl b
  obtain ⟨-, hle, hlt⟩ := t.child_lt (walk_one_isChild hwalk)
  refine ⟨_, _, hstep, arrive_arena .., ?_⟩
  unfold CursorInternal
  rw [arrive_cur]
  split
  · simp
  · next hc =>
    rw [t.leaf_iff hnd] at hc
    omega

/-- A run of bits from an internal node meets no fault (R176). -/
theorem StrictTree.stepBits_answers {s : State} (t : StrictTree s.arena) (hcur : CursorInternal s) (bs : List Bool) :
    ∃ r, stepBits bs s = .ok r := by
  induction bs generalizing s with
  | nil => exact ⟨_, rfl⟩
  | cons b bs ih =>
    by_cases hd : s.dstate = .done
    · exact ⟨_, stepBits_done hd _⟩
    · obtain ⟨u, k, hstep, harena, hcur'⟩ := t.stepBit_answers hcur b
      obtain ⟨r, hrest⟩ := ih (harena ▸ t) hcur'
      exact ⟨(r.1, k + r.2), by simp [stepBits, hd, hstep, hrest]⟩

/-! ### The commands that can meet a fault, where the invariants hold -/

section
variable {s : State} (inv : Inv s)
include inv

theorem Inv.activeTree (ha : s.active = true) : StrictTree s.arena := inv.strictTree (inv.activeNeedsTree ha)

theorem execRdn_answers (sel : BitVec 8) (idx : NodeIdx) : ∃ t, execRdn sel idx s = .next t := by
  unfold execRdn
  split
  · next hrange =>
    split
    · next htv =>
      obtain ⟨nd, hnd, -⟩ := (inv.strictTree htv).node_exists (rdnInRange_index_le hrange)
      rw [hnd]
      exact ⟨_, rfl⟩
    · exact ⟨_, rfl⟩
  · exact ⟨_, rfl⟩

theorem execGen_answers : ∃ t, execGen s = .next t := by
  by_cases htv : s.tv = true
  · obtain ⟨codes, hgen, -⟩ := (inv.strictTree htv).execGen_spec htv
    exact ⟨_, hgen⟩
  · exact ⟨_, by rw [execGen, if_neg htv]; rfl⟩

theorem execRdcl_answers (c : Symbol) : ∃ t, execRdcl c s = .next t := by
  unfold execRdcl
  split
  · next hcv =>
    obtain ⟨_, -, len, _, hlen, -⟩ := inv.codesOfTree hcv c
    rw [hlen]
    exact ⟨_, rfl⟩
  · exact ⟨_, rfl⟩

theorem execRdcw_answers (c : Symbol) (w : BitVec 3) : ∃ t, execRdcw c w s = .next t := by
  unfold execRdcw
  split
  · next hcv =>
    obtain ⟨_, -, _, bits, -, hbits, -⟩ := inv.codesOfTree hcv c
    rw [hbits]
    exact ⟨_, rfl⟩
  · exact ⟨_, rfl⟩

theorem execDstart_answers : ∃ t, execDstart s = .next t := by
  unfold execDstart
  split
  · next htv =>
    obtain ⟨nd, hnd, -⟩ := (inv.strictTree htv).node_exists (n := Config.root) (by simp)
    rw [hnd]
    exact ⟨_, rfl⟩
  · exact ⟨_, rfl⟩

/-- A run of bits is answered in every enabled state but CORRUPT: in DONE no bit is looked at, and an active decode has
its tree. -/
theorem Inv.stepBits_answers (hden : s.den = true) (hd : s.dstate ≠ .corrupt) (bs : List Bool) :
    ∃ r, stepBits bs s = .ok r := by
  have hactive (h : s.dstate = .atRoot ∨ s.dstate = .atInternal) : ∃ r, stepBits bs s = .ok r :=
    (inv.activeTree ((active_iff s).mpr ⟨hden, h⟩)).stepBits_answers inv.cursorInternal bs
  match hstate : s.dstate with
  | .done => exact ⟨_, stepBits_done hstate bs⟩
  | .corrupt => exact absurd hstate hd
  | .atRoot => exact hactive (.inl hstate)
  | .atInternal => exact hactive (.inr hstate)

theorem execDbit_answers (v : BitVec 8) : ∃ t, execDbit v s = .next t := by
  unfold execDbit
  split
  · next hden =>
    split
    · exact ⟨_, rfl⟩
    · exact ⟨_, rfl⟩
    all_goals
      next hd =>
      have hactive : s.active = true := by simp [active_iff, hden, hd]
      split
      · next b _ =>
        obtain ⟨u, k, hstep, -⟩ := (inv.activeTree hactive).stepBit_answers inv.cursorInternal b
        rw [hstep]
        exact ⟨_, rfl⟩
      · exact ⟨_, rfl⟩
  · exact ⟨_, rfl⟩

theorem execDbyte_answers (x : BitVec 8) : ∃ t, execDbyte x s = .next t := by
  unfold execDbyte
  split
  · next hden =>
    split
    · exact ⟨_, rfl⟩
    · next hd =>
      obtain ⟨r, hr⟩ := inv.stepBits_answers hden hd (byteBits x)
      rw [hr]
      exact ⟨_, rfl⟩
  · exact ⟨_, rfl⟩

end

/-! ### The commands that no state can stop -/

theorem execLdf_answers (c : Symbol) (count : Count) (s : State) : ∃ t, execLdf c count s = .next t := by
  unfold execLdf
  split <;> exact ⟨_, rfl⟩

theorem execBuild_answers (s : State) : ∃ t, execBuild s = .next t := by
  unfold execBuild
  split <;> exact ⟨_, rfl⟩

theorem execDend_answers (s : State) : ∃ t, execDend s = .next t := by
  unfold execDend
  split
  · split <;> exact ⟨_, rfl⟩
  · exact ⟨_, rfl⟩

theorem execRds_answers (sel : BitVec 8) (s : State) : ∃ t, execRds sel s = .next t := by
  unfold execRds
  split <;> exact ⟨_, rfl⟩

/-! ### Every command, and every step -/

/-- Where the invariants hold every command, with whatever operands, answers a next state (R12). -/
theorem exec_answers {s : State} (inv : Inv s) (i : Instr) : ∃ t, exec i s = .next t :=
  match i with
  | .nop => ⟨_, rfl⟩
  | .clr => ⟨_, rfl⟩
  | .ldf c count => execLdf_answers c count s
  | .rdf _ => ⟨_, rfl⟩
  | .build => execBuild_answers s
  | .rdn sel idx => execRdn_answers inv sel idx
  | .gen => execGen_answers inv
  | .rdcl c => execRdcl_answers inv c
  | .rdcw c w => execRdcw_answers inv c w
  | .dstart => execDstart_answers inv
  | .dbit v => execDbit_answers inv v
  | .dbyte x => execDbyte_answers inv x
  | .dend => execDend_answers s
  | .rds sel => execRds_answers sel s

/-- The invariants do not speak of what the host has yet to present. -/
theorem takeInput_keeps_inv {s s1 : State} {i : HostInput} (inv : Inv s) (h : takeInput s = some (i, s1)) : Inv s1 := by
  unfold takeInput at h
  split at h <;> cases h
  exact { inv with }

/-- Settles O45: a step idles, resets, answers an illegal word, or executes a command where the invariants still hold. -/
theorem noStepEverStops : Obligations.NoStepEverStops := by
  intro s inv
  unfold step
  split
  · exact ⟨_, rfl⟩
  · exact ⟨_, rfl⟩
  · next cw s1 htake =>
    split
    · next i _ => exact exec_answers (takeInput_keeps_inv inv htake) i
    · exact ⟨_, rfl⟩

end Sys2Proof.Machine

/-! Proofs of the state family (10_state.md): that every step keeps the invariants, which commands write which piece of
state, and what a command adds to OUT and to the responses. -/

namespace Sys2Proof.Machine

/-! ### The counters (R33, R183) -/

section
variable {s : State} (inv : Inv s)
include inv

theorem Inv.ecnt_le_total : s.ecnt.toNat ≤ s.total.toNat := by
  cases hden : s.den with
  | false =>
    obtain ⟨-, -, -, hecnt, htotal, -⟩ := inv.notEnabled hden
    rw [hecnt, htotal]
  | true =>
    rcases inv.symbolsBounded hden with hlt | ⟨-, heq⟩
    · exact hlt.le
    · rw [heq]

theorem Inv.ecnt_le_bitpos : s.ecnt.toNat ≤ s.bitpos.toNat := by
  cases hden : s.den with
  | false =>
    obtain ⟨-, -, hbitpos, hecnt, -⟩ := inv.notEnabled hden
    simp [hbitpos, hecnt]
  | true => exact inv.bitsCoverSymbols hden

/-- The bits spent below the root are fewer than one Symbol's 255, and in DONE there are none. -/
theorem Inv.bitpos_le : s.bitpos.toNat ≤ 255 * s.total.toNat := by
  cases hden : s.den with
  | false =>
    obtain ⟨-, -, hbitpos, -⟩ := inv.notEnabled hden
    simp [hbitpos]
  | true =>
    have hbits := inv.bitsBounded hden
    rcases inv.symbolsBounded hden with hlt | ⟨hdone, heq⟩
    · have := inv.cursorInternal
      omega
    · obtain ⟨-, hcur, -⟩ := inv.doneState hden hdone
      rw [hcur, heq, root_toNat] at hbits
      exact hbits

/-- In an active decode the two counters have room for one more. -/
theorem Inv.counters_succ (ha : s.active = true) :
    (s.bitpos + 1).toNat = s.bitpos.toNat + 1 ∧ (s.ecnt + 1).toNat = s.ecnt.toNat + 1 := by
  obtain ⟨-, hlt, -⟩ := inv.activeCursor ha
  have hbits := inv.bitpos_le
  have htotal := s.total.isLt
  have hbitpos : s.bitpos.toNat + 1 < 2 ^ 48 := by omega
  have hecnt : s.ecnt.toNat + 1 < 2 ^ 40 := by omega
  exact ⟨BitVec.toNat_add_of_lt hbitpos, BitVec.toNat_add_of_lt hecnt⟩

end

/-- Settles O38: ECNT, BITPOS and TOTAL from the invariants, and TOTAL has 40 bits. -/
theorem countersStayBounded : Obligations.CountersStayBounded := by
  intro s inv
  have htotal := s.total.isLt
  exact ⟨inv.ecnt_le_total, inv.ecnt_le_bitpos, inv.bitpos_le, by omega⟩

/-! ### Arming the decoder, and STEP at a leaf and at an internal node (R172, R173) -/

/-- An armed decoder is active unless there is nothing to decode (R172). -/
theorem armDecoder_active (s : State) (total : SymCount) : (armDecoder total s).active = true ↔ total ≠ 0 := by
  by_cases h : total = 0
  · simp [active_iff, h]
  · rw [active_iff, armDecoder_dstate, if_neg h]
    simpa using h

theorem arrive_leaf (s : State) (n : NodeIdx) {nd : Node} (hl : nd.leaf = true) :
    arrive n nd s = { s.emit nd.sym with
      bitpos := s.bitpos + 1
      ecnt := s.ecnt + 1
      cur := Config.root
      dstate := if s.ecnt + 1 = s.total then .done else .atRoot } := by
  rw [arrive, if_pos hl]

theorem arrive_inner (s : State) (n : NodeIdx) {nd : Node} (hl : nd.leaf = false) :
    arrive n nd s = { s with bitpos := s.bitpos + 1, cur := n, dstate := .atInternal } := by
  rw [arrive, if_neg (by simp [hl])]

theorem arrive_dstate_ne_corrupt (s : State) (n : NodeIdx) (nd : Node) : (arrive n nd s).dstate ≠ .corrupt := by
  cases hl : nd.leaf
  · simp [arrive_inner s n hl]
  · rw [arrive_leaf s n hl]
    dsimp only
    split <;> simp

/-! ### Each operation on the state keeps the invariants (R39) -/

theorem inv_reset : Inv State.reset where
  codesNeedTree h := by simp at h
  activeNeedsTree h := by simp [active_iff] at h
  activeCursor h := by simp [active_iff] at h
  atRoot h := by simp at h
  atInternal h := by simp at h
  doneState h := by simp at h
  corruptCause := by simp
  notEnabled _ := ⟨rfl, rfl, rfl, rfl, rfl, rfl⟩
  strictTree h := by simp at h
  bitsCoverSymbols h := by simp at h
  treeOfFreq h := by simp at h
  codesOfTree h := by simp at h
  totalOfTree h := by simp [active_iff] at h
  cursorInternal := by simp
  bitsBounded h := by simp at h
  symbolsBounded h := by simp at h

theorem inv_blockReset (s : State) : Inv (blockReset s) := { inv_reset with }

section
variable {s : State} (inv : Inv s)
include inv

theorem inv_respond (st : Status) (ne : Nat) (data : RespData) : Inv (respond st ne data s) := { inv with }

/-- A stale tree and a stale code table are promised nothing, so a write to FREQ breaks no promise. -/
theorem inv_setFreq_clearValid (ha : s.active = false) (c : Symbol) (v : Count) : Inv (s.setFreq c v).clearValid :=
  { inv with
    codesNeedTree := fun h => by simp at h
    activeNeedsTree := fun h => by simp [ha] at h
    strictTree := fun h => by simp at h
    treeOfFreq := fun h => by simp at h
    codesOfTree := fun h => by simp at h }

theorem inv_installForest (ha : s.active = false) : Inv (s.installForest (buildForest s.freq)) :=
  { inv with
    codesNeedTree := fun _ => rfl
    activeNeedsTree := fun _ => rfl
    activeCursor := fun h => by simp [ha] at h
    strictTree := fun _ => by rw [installForest_arena]; exact buildForest_strictTree s.freq
    treeOfFreq := fun _ => by rw [installForest_arena, installForest_inq, installForest_freq]; exact ⟨rfl, rfl⟩
    codesOfTree := fun h => by simp at h
    totalOfTree := fun h => by simp [ha] at h }

theorem inv_installCodes (htv : s.tv = true) {codes : List (Symbol × List Bool)}
    (htable : ∀ c, ∃ p, IsCode s.arena c p ∧ TableHolds (s.installCodes codes) c p) : Inv (s.installCodes codes) :=
  { inv with
    codesNeedTree := fun _ => htv
    codesOfTree := fun _ => htable }

/-- The CORRUPT entry from an active decode keeps every register but DSTATE and CAUSE (R216). -/
theorem inv_raiseCorrupt (ha : s.active = true) {c : Cause} (hc : c ≠ .none) : Inv (raiseCorrupt c s) where
  codesNeedTree := inv.codesNeedTree
  activeNeedsTree h := by simp [active_iff] at h
  activeCursor h := by simp [active_iff] at h
  atRoot _ h := by simp at h
  atInternal _ h := by simp at h
  doneState _ h := by simp at h
  corruptCause := by simp [hc, ((active_iff s).mp ha).1]
  notEnabled h := by simp [((active_iff s).mp ha).1] at h
  strictTree := inv.strictTree
  bitsCoverSymbols := inv.bitsCoverSymbols
  treeOfFreq := inv.treeOfFreq
  codesOfTree := inv.codesOfTree
  totalOfTree h := by simp [active_iff] at h
  cursorInternal := inv.cursorInternal
  bitsBounded := inv.bitsBounded
  symbolsBounded _ := .inl (inv.activeCursor ha).2.1

/-- DSTART on a valid tree: the decoder stands at the root, which is no leaf, with the root's weight to emit (R171). -/
theorem inv_armDecoder (htv : s.tv = true) {root : Node} (hroot : nodeAt s.arena Config.root = .ok root) :
    Inv (armDecoder root.w s) where
  codesNeedTree := inv.codesNeedTree
  activeNeedsTree _ := htv
  activeCursor h := by
    have hpos : root.w ≠ 0 := (armDecoder_active s root.w).mp h
    refine ⟨⟨root, hroot, ?_⟩, ?_, rfl⟩
    · simpa using (inv.strictTree htv).leaf_iff hroot
    · have hw : 0 < root.w.toNat := by bv_omega
      simpa using hw
  atRoot _ _ := rfl
  atInternal _ h := by rw [armDecoder_dstate] at h; split at h <;> cases h
  doneState _ h := by
    have hzero : root.w = 0 := by simpa using h
    exact ⟨hzero.symm, rfl, rfl⟩
  corruptCause := by rw [armDecoder_dstate]; split <;> simp
  notEnabled h := by simp at h
  strictTree := inv.strictTree
  bitsCoverSymbols _ := by simp
  treeOfFreq := inv.treeOfFreq
  codesOfTree := inv.codesOfTree
  totalOfTree _ := ⟨root, hroot, rfl⟩
  cursorInternal := by simp
  bitsBounded _ := by simp
  symbolsBounded _ := by
    by_cases hzero : root.w = 0
    · exact .inr ⟨by simp [hzero], hzero.symm⟩
    · have hw : 0 < root.w.toNat := by bv_omega
      exact .inl (by simpa using hw)

/-- Arriving at an internal node one step down: one bit more is spent, and the index has fallen by one at least. -/
theorem inv_arrive_inner (ha : s.active = true) {n : NodeIdx} {nd : Node} (hnd : nodeAt s.arena n = .ok nd)
    (hl : nd.leaf = false) (hlt : n.toNat < s.cur.toNat) : Inv (arrive n nd s) := by
  have hden : s.den = true := ((active_iff s).mp ha).1
  obtain ⟨-, hecnt, hcause⟩ := inv.activeCursor ha
  obtain ⟨hbitpos, -⟩ := inv.counters_succ ha
  have hn : 256 ≤ n.toNat := by simpa [hl] using (inv.activeTree ha).leaf_iff hnd
  have hcur := inv.cursorInternal
  rw [arrive_inner s n hl]
  exact
  { inv with
    activeNeedsTree := fun _ => inv.activeNeedsTree ha
    activeCursor := fun _ => ⟨⟨nd, hnd, hl⟩, hecnt, hcause⟩
    atRoot := fun _ h => by cases h
    atInternal := fun _ _ => ⟨hn, by dsimp only; omega⟩
    doneState := fun _ h => by cases h
    corruptCause := by simp [hcause]
    notEnabled := fun h => by simp [hden] at h
    bitsCoverSymbols := fun _ => by have := inv.bitsCoverSymbols hden; dsimp only; omega
    totalOfTree := fun _ => inv.totalOfTree ha
    cursorInternal := ⟨hn, by dsimp only; omega⟩
    bitsBounded := fun _ => by have := inv.bitsBounded hden; dsimp only; omega
    symbolsBounded := fun _ => .inl hecnt }

/-- Arriving at a leaf: the Symbol has cost at most 255 bits, and the decode stays active unless it was the last. -/
theorem inv_arrive_leaf (ha : s.active = true) (n : NodeIdx) {nd : Node} (hl : nd.leaf = true) :
    Inv (arrive n nd s) := by
  have hden : s.den = true := ((active_iff s).mp ha).1
  obtain ⟨-, hlt, hcause⟩ := inv.activeCursor ha
  obtain ⟨hbitpos, hecnt⟩ := inv.counters_succ ha
  obtain ⟨root, hroot, hinner⟩ := (inv.activeTree ha).node_exists (n := Config.root) (by simp)
  have hcur := inv.cursorInternal
  have hmore : s.ecnt + 1 ≠ s.total → (s.ecnt + 1).toNat < s.total.toNat := fun h => by
    have := mt BitVec.eq_of_toNat_eq h
    omega
  rw [arrive_leaf s n hl]
  exact
  { inv with
    activeNeedsTree := fun _ => inv.activeNeedsTree ha
    activeCursor := fun h => by
      have hne : s.ecnt + 1 ≠ s.total := fun heq => by
        rw [active_iff, if_pos heq] at h
        simp at h
      exact ⟨⟨root, hroot, hinner (by simp)⟩, hmore hne, hcause⟩
    atRoot := fun _ _ => rfl
    atInternal := fun _ h => by dsimp only at h; split at h <;> cases h
    doneState := fun _ h => ⟨by simpa using h, rfl, hcause⟩
    corruptCause := by dsimp only; split <;> simp [hcause]
    notEnabled := fun h => by simp [hden] at h
    bitsCoverSymbols := fun _ => by have := inv.bitsCoverSymbols hden; dsimp only; omega
    totalOfTree := fun _ => inv.totalOfTree ha
    cursorInternal := by simp
    bitsBounded := fun _ => by have := inv.bitsBounded hden; dsimp only; omega
    symbolsBounded := fun _ => by
      by_cases heq : s.ecnt + 1 = s.total
      · exact .inr ⟨if_pos heq, heq⟩
      · exact .inl (hmore heq) }

theorem inv_stepBit (ha : s.active = true) {b : Bool} {u : State} {k : Nat} (h : stepBit b s = .ok (u, k)) :
    Inv u ∧ u.den = true ∧ u.dstate ≠ .corrupt := by
  obtain ⟨here, nd, n, hhere, hinner, hn, hnd, rfl, -⟩ := stepBit_cases h
  refine ⟨?_, by simpa using ((active_iff s).mp ha).1, arrive_dstate_ne_corrupt s n nd⟩
  cases hl : nd.leaf
  · have hwalk : walk s.arena s.cur [b] = some n := walk_one.mpr ⟨here, hhere, hinner, hn⟩
    exact inv_arrive_inner inv ha hnd hl ((inv.activeTree ha).child_lt (walk_one_isChild hwalk)).2.2
  · exact inv_arrive_leaf inv ha n hl

end

/-- A run of bits that succeeds skips its first bit in DONE, and steps it otherwise (R176, R178). -/
theorem stepBits_cons_cases {b : Bool} {bs : List Bool} {s u : State} {k : Nat} (h : stepBits (b :: bs) s = .ok (u, k)) :
    (s.dstate = .done ∧ stepBits bs s = .ok (u, k)) ∨
    (s.dstate ≠ .done ∧ ∃ s1 k1 k2, stepBit b s = .ok (s1, k1) ∧ stepBits bs s1 = .ok (u, k2) ∧ k = k1 + k2) := by
  simp only [stepBits] at h
  split at h
  · next hdone => exact .inl ⟨hdone, h⟩
  · next hdone =>
    split at h
    · cases h
    · next s1 k1 hstep =>
      split at h <;> cases h
      next k2 hrest => exact .inr ⟨hdone, s1, k1, k2, hstep, hrest, rfl⟩

/-- A run of bits keeps the invariants: each bit is stepped in an active decode, or skipped in DONE (R176). -/
theorem inv_stepBits {bs : List Bool} {s u : State} {k : Nat} (inv : Inv s) (hden : s.den = true)
    (hd : s.dstate ≠ .corrupt) (h : stepBits bs s = .ok (u, k)) : Inv u := by
  induction bs generalizing s k with
  | nil => cases h; exact inv
  | cons b bs ih =>
    rcases stepBits_cons_cases h with ⟨-, hrest⟩ | ⟨hdone, s1, k1, k2, hstep, hrest, -⟩
    · exact ih inv hden hd hrest
    · have ha : s.active = true := (active_iff s).mpr ⟨hden, by cases hs : s.dstate <;> simp_all⟩
      obtain ⟨inv1, hden1, hd1⟩ := inv_stepBit inv ha hstep
      exact ih inv1 hden1 hd1 hrest

/-! ### Every command and every step keeps the invariants -/

section
variable {s t : State} (inv : Inv s)
include inv

theorem inv_gen (htv : s.tv = true) (h : exec .gen s = .next t) : Inv t := by
  obtain ⟨codes, hgen, htable⟩ := (inv.strictTree htv).execGen_spec htv
  cases hgen.symm.trans h
  exact inv_respond (inv_installCodes inv htv htable) ..

theorem inv_dbit {v : BitVec 8} (h : exec (.dbit v) s = .next t) : Inv t := by
  rcases dbit_cases h with ⟨-, rfl⟩ | ⟨-, -, rfl⟩ | ⟨-, -, rfl⟩ | ⟨ha, b, u, k, -, hstep, rfl⟩ | ⟨ha, -, rfl⟩
  · exact inv_respond inv ..
  · exact inv_respond inv ..
  · exact inv_respond inv ..
  · exact inv_respond (inv_stepBit inv ha hstep).1 ..
  · exact inv_raiseCorrupt inv ha (by decide)

theorem inv_dbyte {x : BitVec 8} (h : exec (.dbyte x) s = .next t) : Inv t := by
  rcases dbyte_cases h with ⟨-, rfl⟩ | ⟨-, -, rfl⟩ | ⟨hden, hd, u, k, hsteps, rfl⟩
  · exact inv_respond inv ..
  · exact inv_respond inv ..
  · exact inv_respond (inv_stepBits inv hden hd hsteps) ..

theorem inv_dend (h : exec .dend s = .next t) : Inv t := by
  rcases dend_cases h with ⟨-, rfl⟩ | ⟨-, -, rfl⟩ | ⟨-, -, rfl⟩ | ⟨hden, hd, rfl⟩ | ⟨hden, hd, rfl⟩
  · exact inv_respond inv ..
  · exact inv_respond inv ..
  · exact inv_respond inv ..
  · exact inv_raiseCorrupt inv ((active_iff s).mpr ⟨hden, .inr hd⟩) (by decide)
  · exact inv_raiseCorrupt inv ((active_iff s).mpr ⟨hden, .inl hd⟩) (by decide)

/-- Every command keeps the invariants (R39). -/
theorem inv_exec {i : Instr} (h : exec i s = .next t) : Inv t := by
  rcases exec_cases h with ⟨st, data, rfl, -⟩ | ⟨-, rfl⟩ | ⟨c, count, -, ha, rfl⟩ | ⟨-, ha, rfl⟩ |
    ⟨rfl, -, htv, -⟩ | ⟨-, root, htv, hroot, rfl⟩ | ⟨v, rfl⟩ | ⟨x, rfl⟩ | rfl
  · exact inv_respond inv ..
  · exact inv_respond (inv_blockReset s) ..
  · exact inv_respond (inv_setFreq_clearValid inv ha c count) ..
  · exact inv_respond (inv_installForest inv ha) ..
  · exact inv_gen inv htv h
  · exact inv_respond (inv_armDecoder inv htv hroot) ..
  · exact inv_dbit inv h
  · exact inv_dbyte inv h
  · exact inv_dend inv h

end

theorem takeInput_eq_none {s : State} : takeInput s = none ↔ s.inputs = [] := by
  unfold takeInput
  split <;> simp_all

theorem takeInput_eq_some {s s1 : State} {i : HostInput} :
    takeInput s = some (i, s1) ↔ ∃ rest, s.inputs = i :: rest ∧ s1 = { s with inputs := rest } := by
  unfold takeInput
  split
  · simp_all
  · next j rest hin => simp [hin, eq_comm]

/-- What a step can do: idle, take the reset, answer an illegal word, or execute a command (R68, R85, R224, R240). -/
theorem step_cases {s t : State} (h : step s = .next t) :
    (s.inputs = [] ∧ t = s) ∨
    ∃ i rest, s.inputs = i :: rest ∧
      ((i = .reset ∧ t = blockReset { s with inputs := rest }) ∨
       ∃ cw, i = .command cw ∧
        ((∃ e, decode cw = .error e ∧ t = answerIllegal { s with inputs := rest }) ∨
         ∃ c, decode cw = .ok c ∧ exec c { s with inputs := rest } = .next t)) := by
  unfold step at h
  split at h
  · next hnone => cases h; exact .inl ⟨takeInput_eq_none.mp hnone, rfl⟩
  · next hsome =>
    obtain ⟨rest, hin, rfl⟩ := takeInput_eq_some.mp hsome
    cases h
    exact .inr ⟨_, rest, hin, .inl ⟨rfl, rfl⟩⟩
  · next cw _ hsome =>
    obtain ⟨rest, hin, rfl⟩ := takeInput_eq_some.mp hsome
    refine .inr ⟨_, rest, hin, .inr ⟨cw, rfl, ?_⟩⟩
    split at h
    · next c hc => exact .inr ⟨c, hc, h⟩
    · next e he => cases h; exact .inl ⟨e, he, rfl⟩

/-- Settles O44: the invariants do not speak of the port, and reset, an illegal word and every command keep them. -/
theorem everyStepKeepsTheInvariants : Obligations.EveryStepKeepsTheInvariants := by
  intro s t inv h
  rcases step_cases h with ⟨-, rfl⟩ | ⟨i, rest, -, ⟨-, rfl⟩ | ⟨cw, -, ⟨e, -, rfl⟩ | ⟨c, -, hexec⟩⟩⟩
  · exact inv
  · exact inv_blockReset _
  · exact inv_respond (s := { s with inputs := rest }) { inv with } ..
  · exact inv_exec (s := { s with inputs := rest }) { inv with } hexec

/-! ### The queue, the reset state, and the steps without a command -/

/-- Settles O15: the size of the queue is part of what holds after `k` combination steps. -/
theorem queueShrinksByOneEachStep : Obligations.QueueShrinksByOneEachStep := by
  intro freq
  refine ⟨fun k hk => (built_steps freq k hk).size, fun n hn => ?_⟩
  have hroot : n.toNat = 510 ↔ n = 510 := (BitVec.toNat_inj (x := n) (y := 510))
  rw [buildForest_inq freq n.toNat (by omega)]
  simp only [hroot]

/-- Settles O43: each field of the reset state is the value that R42 gives. -/
theorem resetMeetsTheInvariants : Obligations.ResetMeetsTheInvariants := by
  refine ⟨inv_reset, fun c => ?_, rfl, rfl, rfl, rfl, rfl, rfl, rfl, rfl, rfl, rfl, fun n hn => ?_, fun n hn => ?_, rfl, rfl⟩
  · simp [State.freqAt]
  · simp [hn]
  · simp [hn]

/-- Settles O9: the port is empty, or holds the reset signal. -/
theorem idleHoldsAndResetResets : Obligations.IdleHoldsAndResetResets := by
  refine ⟨fun s hidle => ?_, fun s rest hreset => ?_⟩
  · rw [step, takeInput_eq_none.mpr hidle]
  · rw [step, takeInput_eq_some.mpr ⟨rest, hreset, rfl⟩]
    rfl

/-! ### DBIT in an active decode -/

theorem bitValue_bit (b : Bool) : bitValue (if b then 1 else 0) = some b := by cases b <;> rfl

/-- While active, a code point that is a bit is stepped (R174). -/
theorem exec_dbit_active {s : State} (ha : s.active = true) (b : Bool) :
    exec (.dbit (if b then 1 else 0)) s = answerBits (stepBit b s) := by
  obtain ⟨hden, hd | hd⟩ := (active_iff s).mp ha <;> simp only [exec, execDbit, hden, hd, bitValue_bit, if_true]

/-- Settles O31: the cursor is an internal node of the tree, so the child that the bit selects exists. -/
theorem dbitCompletesWheneverActive : Obligations.DbitCompletesWheneverActive := by
  intro b s inv ha
  obtain ⟨⟨here, hhere, hinner⟩, -⟩ := inv.activeCursor ha
  obtain ⟨nd, hnd, hstep⟩ := (inv.activeTree ha).stepBit_spec hhere hinner b
  obtain ⟨hbitpos, hecnt⟩ := inv.counters_succ ha
  refine ⟨_, nd, _, walk_one.mpr ⟨here, hhere, hinner, rfl⟩, hnd, by rw [exec_dbit_active ha, hstep]; rfl, ?_,
    fun hl => ?_, fun hl => ?_⟩
  · rw [respond_bitpos, arrive_bitpos, hbitpos]
  · rw [arrive_leaf s _ hl]
    exact ⟨hecnt, rfl, rfl⟩
  · rw [arrive_inner s _ hl]
    exact ⟨rfl, rfl, rfl⟩

/-! ### The decoder does not read FREQ and the code table -/

/-- The ways DSTART ends (R171). -/
theorem dstart_cases {s t : State} (h : exec .dstart s = .next t) :
    (s.tv = false ∧ t = respond .errSeq 0 0 s) ∨
    (s.tv = true ∧ ∃ root, nodeAt s.arena Config.root = .ok root ∧ t = respond .ok 0 0 (armDecoder root.w s)) := by
  simp only [exec, execDstart] at h
  split at h
  · next htv =>
    split at h
    · next root hroot => cases h; exact .inr ⟨htv, root, hroot, rfl⟩
    · cases h
  · next htv => cases h; exact .inl ⟨by simpa using htv, rfl⟩

section
variable (freq : Vector Count Config.nLeaf) (clen : Vector (Option CodeLen) Config.nLeaf)
  (cbits : Vector (Option CodeBits) Config.nLeaf) (cv : Bool)

/-- The state with FREQ, CLEN, CBITS and CV replaced: the items of R20 that the decoder has no use for. -/
def State.withTable (s : State) : State := { s with freq := freq, clen := clen, cbits := cbits, cv := cv }

@[simp] theorem withTable_tv (s : State) : (s.withTable freq clen cbits cv).tv = s.tv := rfl
@[simp] theorem withTable_den (s : State) : (s.withTable freq clen cbits cv).den = s.den := rfl
@[simp] theorem withTable_dstate (s : State) : (s.withTable freq clen cbits cv).dstate = s.dstate := rfl
@[simp] theorem withTable_cur (s : State) : (s.withTable freq clen cbits cv).cur = s.cur := rfl
@[simp] theorem withTable_arena (s : State) : (s.withTable freq clen cbits cv).arena = s.arena := rfl

@[simp] theorem respond_withTable (st : Status) (ne : Nat) (data : RespData) (s : State) :
    respond st ne data (s.withTable freq clen cbits cv) = (respond st ne data s).withTable freq clen cbits cv := rfl

@[simp] theorem raiseCorrupt_withTable (c : Cause) (s : State) :
    raiseCorrupt c (s.withTable freq clen cbits cv) = (raiseCorrupt c s).withTable freq clen cbits cv := rfl

@[simp] theorem armDecoder_withTable (total : SymCount) (s : State) :
    armDecoder total (s.withTable freq clen cbits cv) = (armDecoder total s).withTable freq clen cbits cv := rfl

@[simp] theorem arrive_withTable (n : NodeIdx) (nd : Node) (s : State) :
    arrive n nd (s.withTable freq clen cbits cv) = (arrive n nd s).withTable freq clen cbits cv := by
  cases hl : nd.leaf
  · rw [arrive_inner _ n hl, arrive_inner _ n hl]; rfl
  · rw [arrive_leaf _ n hl, arrive_leaf _ n hl]; rfl

variable {freq clen cbits cv}

theorem stepBit_withTable {b : Bool} {s u : State} {k : Nat} (h : stepBit b s = .ok (u, k)) :
    stepBit b (s.withTable freq clen cbits cv) = .ok (u.withTable freq clen cbits cv, k) := by
  obtain ⟨here, nd, n, hhere, hinner, rfl, hnd, rfl, rfl⟩ := stepBit_cases h
  simp [stepBit, hhere, hinner, hnd]

theorem stepBits_withTable {bs : List Bool} {s u : State} {k : Nat} (h : stepBits bs s = .ok (u, k)) :
    stepBits bs (s.withTable freq clen cbits cv) = .ok (u.withTable freq clen cbits cv, k) := by
  induction bs generalizing s k with
  | nil => cases h; rfl
  | cons b bs ih =>
    rcases stepBits_cons_cases h with ⟨hdone, hrest⟩ | ⟨hdone, s1, k1, k2, hstep, hrest, rfl⟩
    · simp [stepBits, hdone, ih hrest]
    · simp [stepBits, hdone, stepBit_withTable hstep, ih hrest]

variable {s t : State}

theorem dbit_withTable {v : BitVec 8} (h : exec (.dbit v) s = .next t) :
    exec (.dbit v) (s.withTable freq clen cbits cv) = .next (t.withTable freq clen cbits cv) := by
  rcases dbit_cases h with ⟨hden, rfl⟩ | ⟨hden, hd, rfl⟩ | ⟨hden, hd, rfl⟩ | ⟨ha, b, u, k, hv, hstep, rfl⟩ | ⟨ha, hv, rfl⟩
  · simp [exec, execDbit, answer, hden]
  · simp [exec, execDbit, answer, hden, hd]
  · simp [exec, execDbit, answer, hden, hd]
  · obtain ⟨hden, hd | hd⟩ := (active_iff s).mp ha <;>
      simp [exec, execDbit, hv, hden, hd, stepBit_withTable hstep, answerBits]
  · obtain ⟨hden, hd | hd⟩ := (active_iff s).mp ha <;> simp [exec, execDbit, hv, hden, hd]

theorem dbyte_withTable {x : BitVec 8} (h : exec (.dbyte x) s = .next t) :
    exec (.dbyte x) (s.withTable freq clen cbits cv) = .next (t.withTable freq clen cbits cv) := by
  rcases dbyte_cases h with ⟨hden, rfl⟩ | ⟨hden, hd, rfl⟩ | ⟨hden, hd, u, k, hsteps, rfl⟩
  · simp [exec, execDbyte, answer, hden]
  · simp [exec, execDbyte, answer, hden, hd]
  · simp [exec, execDbyte, hden, hd, stepBits_withTable hsteps, answerBits]

theorem dend_withTable (h : exec .dend s = .next t) :
    exec .dend (s.withTable freq clen cbits cv) = .next (t.withTable freq clen cbits cv) := by
  rcases dend_cases h with ⟨hden, rfl⟩ | ⟨hden, hd, rfl⟩ | ⟨hden, hd, rfl⟩ | ⟨hden, hd, rfl⟩ | ⟨hden, hd, rfl⟩
  · simp [exec, execDend, answer, hden]
  all_goals simp [exec, execDend, answer, hden, hd]

theorem dstart_withTable (h : exec .dstart s = .next t) :
    exec .dstart (s.withTable freq clen cbits cv) = .next (t.withTable freq clen cbits cv) := by
  rcases dstart_cases h with ⟨htv, rfl⟩ | ⟨htv, root, hroot, rfl⟩
  · simp [exec, execDstart, answer, htv]
  · simp [exec, execDstart, answer, htv, hroot]

end

/-- Settles O39: each decoder command ends the same way under any FREQ, CLEN, CBITS and CV. -/
theorem decoderNeverReadsTheCodeTable : Obligations.DecoderNeverReadsTheCodeTable := by
  intro i s t freq clen cbits cv hi h
  cases i with
  | dbit v => exact dbit_withTable h
  | dbyte x => exact dbyte_withTable h
  | dend => exact dend_withTable h
  | dstart => exact dstart_withTable h
  | _ => rcases hi with hi | hi <;> cases hi

/-! ### What a command adds to OUT and to the responses -/

theorem respWord_ok (data : RespData) : respWord .ok 0 data = data.setWidth 64 := by
  apply BitVec.eq_of_toNat_eq
  rw [respWord_toNat, BitVec.toNat_setWidth_of_le (by decide)]
  simp [Status.code]

/-- The response is given and counts the Symbols `syms` that OUT has gained, and the port is as it was; a refusal carries no
Symbol and no data (R36, R87, R88). -/
structure GivesResponse (s t : State) (st : Status) (syms : List Symbol) (data : RespData) : Prop where
  responses : t.responses = s.responses ++ [respWord st syms.length data]
  out : t.out = s.out ++ syms
  inputs : t.inputs = s.inputs
  refusal : st ≠ .ok → syms = [] ∧ data = 0

/-- A response given to a state that differs from `s` neither in OUT nor in the world's side. -/
theorem givesResponse_respond {s u : State} {st : Status} {data : RespData} (hresp : u.responses = s.responses)
    (hout : u.out = s.out) (hin : u.inputs = s.inputs) (hdata : st ≠ .ok → data = 0) :
    GivesResponse s (respond st 0 data u) st [] data :=
  ⟨by simp [hresp], by simp [hout], hin, fun h => ⟨rfl, hdata h⟩⟩

theorem BitsOnly.givesResponse {s u : State} {k : Nat} (h : BitsOnly s u k) :
    ∃ syms, syms.length = k ∧ GivesResponse s (respond .ok k 0 u) .ok syms 0 := by
  obtain ⟨syms, hout, hlen⟩ := h.out
  exact ⟨syms, hlen, by simp [h.responses, hlen], hout, h.inputs, fun hst => absurd rfl hst⟩

section
variable {s t : State}

theorem dbit_gives_response {v : BitVec 8} (h : exec (.dbit v) s = .next t) :
    ∃ st syms data, GivesResponse s t st syms data ∧ syms.length ≤ 1 := by
  rcases dbit_cases h with ⟨-, rfl⟩ | ⟨-, -, rfl⟩ | ⟨-, -, rfl⟩ | ⟨-, b, u, k, -, hstep, rfl⟩ | ⟨-, -, rfl⟩
  · exact ⟨_, [], _, givesResponse_respond rfl rfl rfl fun _ => rfl, by simp⟩
  · exact ⟨_, [], _, givesResponse_respond rfl rfl rfl fun _ => rfl, by simp⟩
  · exact ⟨_, [], _, givesResponse_respond rfl rfl rfl fun _ => rfl, by simp⟩
  · obtain ⟨hbits, hk⟩ := stepBit_bitsOnly hstep
    obtain ⟨syms, rfl, hans⟩ := hbits.givesResponse
    exact ⟨_, syms, _, hans, hk⟩
  · exact ⟨_, [], _, givesResponse_respond rfl rfl rfl fun _ => rfl, by simp⟩

theorem dbyte_gives_response {x : BitVec 8} (h : exec (.dbyte x) s = .next t) :
    ∃ st syms data, GivesResponse s t st syms data ∧ syms.length ≤ 8 := by
  rcases dbyte_cases h with ⟨-, rfl⟩ | ⟨-, -, rfl⟩ | ⟨-, -, u, k, hsteps, rfl⟩
  · exact ⟨_, [], _, givesResponse_respond rfl rfl rfl fun _ => rfl, by simp⟩
  · exact ⟨_, [], _, givesResponse_respond rfl rfl rfl fun _ => rfl, by simp⟩
  · obtain ⟨hbits, hk⟩ := stepBits_bitsOnly hsteps
    obtain ⟨syms, rfl, hans⟩ := hbits.givesResponse
    exact ⟨_, syms, _, hans, hk⟩

theorem dend_gives_response (h : exec .dend s = .next t) : ∃ st data, GivesResponse s t st [] data := by
  rcases dend_cases h with ⟨-, rfl⟩ | ⟨-, -, rfl⟩ | ⟨-, -, rfl⟩ | ⟨-, -, rfl⟩ | ⟨-, -, rfl⟩ <;>
    exact ⟨_, _, givesResponse_respond rfl rfl rfl fun _ => rfl⟩

/-- Only DBIT and DBYTE emit (R36). -/
theorem exec_gives_response {i : Instr} (h : exec i s = .next t) :
    (∃ st data, GivesResponse s t st [] data) ∨
    (∃ v, i = .dbit v ∧ ∃ st syms data, GivesResponse s t st syms data ∧ syms.length ≤ 1) ∨
    (∃ x, i = .dbyte x ∧ ∃ st syms data, GivesResponse s t st syms data ∧ syms.length ≤ 8) := by
  rcases exec_cases h with ⟨st, data, rfl, hdata⟩ | ⟨-, rfl⟩ | ⟨c, count, -, -, rfl⟩ | ⟨-, -, rfl⟩ |
    ⟨-, codes, -, -, rfl⟩ | ⟨-, root, -, -, rfl⟩ | ⟨v, rfl⟩ | ⟨x, rfl⟩ | rfl
  · exact .inl ⟨st, data, givesResponse_respond rfl rfl rfl hdata⟩
  · exact .inl ⟨_, _, givesResponse_respond rfl rfl rfl fun _ => rfl⟩
  · exact .inl ⟨_, _, givesResponse_respond rfl rfl rfl fun _ => rfl⟩
  · exact .inl ⟨_, _, givesResponse_respond rfl rfl rfl fun _ => rfl⟩
  · exact .inl ⟨_, _, givesResponse_respond rfl rfl rfl fun _ => rfl⟩
  · exact .inl ⟨_, _, givesResponse_respond rfl rfl rfl fun _ => rfl⟩
  · exact .inr (.inl ⟨v, rfl, dbit_gives_response h⟩)
  · exact .inr (.inr ⟨x, rfl, dbyte_gives_response h⟩)
  · exact .inl (dend_gives_response h)

end

/-- Settles O49: by command, with the bound on what DBIT and DBYTE emit. -/
theorem everyCommandGivesOneResponse : Obligations.EveryCommandGivesOneResponse := by
  intro i s t h
  rcases exec_gives_response h with ⟨st, data, hans⟩ | ⟨v, rfl, st, syms, data, hans, hlen⟩ |
    ⟨x, rfl, st, syms, data, hans, hlen⟩
  · exact ⟨st, [], data, hans.responses, hans.out, hans.inputs, by simp, fun hne => absurd rfl hne, hans.refusal⟩
  · refine ⟨st, syms, data, hans.responses, hans.out, hans.inputs, by omega, fun hne => .inr ⟨⟨v, rfl⟩, ?_⟩, hans.refusal⟩
    have := List.length_pos_iff.mpr hne
    omega
  · exact ⟨st, syms, data, hans.responses, hans.out, hans.inputs, hlen, fun _ => .inl ⟨x, rfl⟩, hans.refusal⟩

/-- Settles O53: idle, the reset and an illegal word take nothing back, and a command only appends. -/
theorem outputIsNeverWithdrawn : Obligations.OutputIsNeverWithdrawn := by
  intro s t h
  rcases step_cases h with ⟨-, rfl⟩ | ⟨i, rest, -, ⟨-, rfl⟩ | ⟨cw, -, ⟨e, -, rfl⟩ | ⟨c, -, hexec⟩⟩⟩
  · exact ⟨List.prefix_rfl, List.prefix_rfl⟩
  · exact ⟨List.prefix_rfl, List.prefix_rfl⟩
  · exact ⟨List.prefix_rfl, List.prefix_append ..⟩
  · obtain ⟨st, syms, data, hresp, hout, -⟩ := everyCommandGivesOneResponse _ _ _ hexec
    exact ⟨⟨syms, hout.symm⟩, ⟨_, hresp.symm⟩⟩

/-! ### The status view (R40, R43) -/

/-- The flags word as a number: each field at its place (R40). -/
theorem flagsWord_toNat (s : State) : s.flagsWord.toNat =
    s.cur.toNat * 2 ^ 7 + s.cause.code.toNat * 2 ^ 5 + s.cv.toNat * 2 ^ 4 + s.tv.toNat * 2 ^ 3 + s.den.toNat * 2 ^ 2 +
      s.dstate.code.toNat := by
  have hcause := s.cause.code.isLt
  have hdstate := s.dstate.code.isLt
  have hcur := s.cur.isLt
  have hcv := s.cv.toNat_le
  have htv := s.tv.toNat_le
  have hden := s.den.toNat_le
  simp only [State.flagsWord, BitVec.toNat_setWidth, toNat_append_add, BitVec.toNat_ofBool]
  omega

theorem execRds_inRange {sel : BitVec 8} (h : sel.toNat ≤ 3) (s : State) :
    exec (.rds sel) s = .next (s.addResponse (BitVec.ofNat 64 (statusView s sel).toNat)) := by
  simp [exec, execRds, rdsInRange, h, answerData, respond_eq_addResponse, respWord_ok, BitVec.ofNat_toNat]

/-- Settles O42: the flags word as a number for selector 0, the counters for 1 to 3. -/
theorem rdsReturnsTheStatusView : Obligations.RdsReturnsTheStatusView := by
  refine ⟨⟨rfl, rfl, rfl, rfl⟩, ⟨rfl, rfl, rfl, rfl⟩, fun sel s => ⟨fun h => ?_, ?_, ?_, ?_, ?_⟩⟩
  · have hout : rdsInRange sel = false := by simpa [rdsInRange] using h
    simp only [exec, execRds, hout]
    rfl
  · rintro rfl
    rw [execRds_inRange (by decide), ← flagsWord_toNat]
    rfl
  · rintro rfl
    rw [execRds_inRange (by decide), show statusView s 1 = s.ecnt.setWidth 48 from rfl,
      BitVec.toNat_setWidth_of_le (by decide)]
  · rintro rfl
    rw [execRds_inRange (by decide), show statusView s 2 = s.total.setWidth 48 from rfl,
      BitVec.toNat_setWidth_of_le (by decide)]
  · rintro rfl
    rw [execRds_inRange (by decide)]
    rfl

/-- Bits [2:0] of the flags word are DEN and DSTATE (R40). -/
theorem flagsWord_low (s : State) : (s.flagsWord.extractLsb' 0 3).toNat = s.den.toNat * 4 + s.dstate.code.toNat := by
  have hdstate := s.dstate.code.isLt
  have hden := s.den.toNat_le
  rw [BitVec.extractLsb'_toNat, flagsWord_toNat, Nat.shiftRight_zero]
  omega

theorem doneOut_iff (s : State) : s.doneOut = true ↔ s.den = true ∧ s.dstate = .done := by simp [State.doneOut]

theorem corruptOut_iff (s : State) : s.corruptOut = true ↔ s.den = true ∧ s.dstate = .corrupt := by
  simp [State.corruptOut]

/-- Settles O54: DEN and DSTATE are read off the low bits of the flags word. -/
theorem levelOutputsMirrorTheFlagsWord : Obligations.LevelOutputsMirrorTheFlagsWord := by
  intro s
  have hlow (v : BitVec 3) : s.flagsWord.extractLsb' 0 3 = v ↔ s.den.toNat * 4 + s.dstate.code.toNat = v.toNat := by
    rw [← BitVec.toNat_inj, flagsWord_low]
  refine ⟨?_, ?_, doneOut_iff s, corruptOut_iff s⟩
  · rw [doneOut_iff, hlow]
    cases s.den <;> cases s.dstate <;> decide
  · rw [corruptOut_iff, hlow]
    cases s.den <;> cases s.dstate <;> decide

/-! ### Who writes what (R20) -/

/-- What no command that presents body bits or ends the stream writes. -/
structure BodyFrame (s t : State) : Prop where
  freq : t.freq = s.freq
  arena : t.arena = s.arena
  inq : t.inq = s.inq
  clen : t.clen = s.clen
  cbits : t.cbits = s.cbits
  tv : t.tv = s.tv
  cv : t.cv = s.cv
  den : t.den = s.den
  total : t.total = s.total

theorem bodyFrame_respond (s : State) (st : Status) (ne : Nat) (data : RespData) : BodyFrame s (respond st ne data s) :=
  ⟨rfl, rfl, rfl, rfl, rfl, rfl, rfl, rfl, rfl⟩

theorem bodyFrame_raiseCorrupt (s : State) (c : Cause) : BodyFrame s (raiseCorrupt c s) :=
  ⟨rfl, rfl, rfl, rfl, rfl, rfl, rfl, rfl, rfl⟩

theorem BitsOnly.bodyFrame {s u : State} {k : Nat} (h : BitsOnly s u k) (st : Status) (ne : Nat) (data : RespData) :
    BodyFrame s (respond st ne data u) :=
  ⟨h.freq, h.arena, h.inq, h.clen, h.cbits, h.tv, h.cv, h.den, h.total⟩

section
variable {s t : State}

/-- BUILD touches neither FREQ, nor the code table, nor the decoder (R125). Stated for any forest, so that nothing runs
BUILD. -/
theorem build_frame {f : Forest} (h : t = respond .ok 0 0 (s.installForest f)) :
    t.freq = s.freq ∧ t.clen = s.clen ∧ t.cbits = s.cbits ∧ t.den = s.den ∧ t.total = s.total ∧ t.dstate = s.dstate ∧
      t.cur = s.cur ∧ t.bitpos = s.bitpos ∧ t.ecnt = s.ecnt ∧ t.cause = s.cause := by
  subst h
  exact ⟨rfl, rfl, rfl, rfl, rfl, rfl, rfl, rfl, rfl, rfl⟩

theorem dbit_frame {v : BitVec 8} (h : exec (.dbit v) s = .next t) : BodyFrame s t := by
  rcases dbit_cases h with ⟨-, rfl⟩ | ⟨-, -, rfl⟩ | ⟨-, -, rfl⟩ | ⟨-, b, u, k, -, hstep, rfl⟩ | ⟨-, -, rfl⟩
  · exact bodyFrame_respond ..
  · exact bodyFrame_respond ..
  · exact bodyFrame_respond ..
  · exact (stepBit_bitsOnly hstep).1.bodyFrame ..
  · exact bodyFrame_raiseCorrupt ..

/-- DBYTE never enters CORRUPT (R176). -/
theorem dbyte_frame {x : BitVec 8} (h : exec (.dbyte x) s = .next t) : BodyFrame s t ∧ t.cause = s.cause := by
  rcases dbyte_cases h with ⟨-, rfl⟩ | ⟨-, -, rfl⟩ | ⟨-, -, u, k, hsteps, rfl⟩
  · exact ⟨bodyFrame_respond .., rfl⟩
  · exact ⟨bodyFrame_respond .., rfl⟩
  · have hbits := (stepBits_bitsOnly hsteps).1
    exact ⟨hbits.bodyFrame .., hbits.cause⟩

/-- DEND moves neither the cursor nor a counter (R177). -/
theorem dend_frame (h : exec .dend s = .next t) :
    BodyFrame s t ∧ t.cur = s.cur ∧ t.bitpos = s.bitpos ∧ t.ecnt = s.ecnt := by
  rcases dend_cases h with ⟨-, rfl⟩ | ⟨-, -, rfl⟩ | ⟨-, -, rfl⟩ | ⟨-, -, rfl⟩ | ⟨-, -, rfl⟩
  · exact ⟨bodyFrame_respond .., rfl, rfl, rfl⟩
  · exact ⟨bodyFrame_respond .., rfl, rfl, rfl⟩
  · exact ⟨bodyFrame_respond .., rfl, rfl, rfl⟩
  · exact ⟨bodyFrame_raiseCorrupt .., rfl, rfl, rfl⟩
  · exact ⟨bodyFrame_raiseCorrupt .., rfl, rfl, rfl⟩

end

/-- Settles O51: a response alone writes nothing, each other command its own items, and the body commands keep their frame. -/
theorem onlyTheListedCommandsWrite : Obligations.OnlyTheListedCommandsWrite := by
  intro i s t h hclr
  rcases exec_cases h with ⟨st, data, rfl, -⟩ | ⟨rfl, -⟩ | ⟨c, count, rfl, -, rfl⟩ | ⟨rfl, -, hbuild⟩ |
    ⟨rfl, codes, -, -, rfl⟩ | ⟨rfl, root, -, -, rfl⟩ | ⟨v, rfl⟩ | ⟨x, rfl⟩ | rfl
  · simp
  · exact absurd rfl hclr
  · simp
  · obtain ⟨hfreq, hclen, hcbits, hden, htotal, hdstate, hcur, hbitpos, hecnt, hcause⟩ := build_frame hbuild
    clear hbuild
    simp [*]
  · simp
  · simp
  · obtain ⟨hfreq, harena, hinq, hclen, hcbits, htv, hcv, hden, htotal⟩ := dbit_frame h
    simp [*]
  · obtain ⟨⟨hfreq, harena, hinq, hclen, hcbits, htv, hcv, hden, htotal⟩, hcause⟩ := dbyte_frame h
    simp [*]
  · obtain ⟨⟨hfreq, harena, hinq, hclen, hcbits, htv, hcv, hden, htotal⟩, hcur, hbitpos, hecnt⟩ := dend_frame h
    simp [*]

end Sys2Proof.Machine

/-! Proofs of the memory family (20_memory.md): a step runs the presented word, and a read depends on nothing that it
writes. -/

namespace Sys2Proof.Machine

/-! ### The command port (R68, R80) -/

/-- Settles O5: the port gives the word at its head, and the word decodes. -/
theorem stepRunsTheDecodedCommand : Obligations.StepRunsTheDecodedCommand := by
  intro s cw rest i hin hdec
  have htake : takeInput s = some (.command cw, { s with inputs := rest }) := takeInput_eq_some.mpr ⟨rest, hin, rfl⟩
  simp only [step, htake, hdec]

/-! ### What the reads look at, where a response is added (R66) -/

section
variable (s : State) (rw : RespWord)

@[simp] theorem addResponse_clenAt (c : Symbol) : (s.addResponse rw).clenAt c = s.clenAt c := rfl
@[simp] theorem addResponse_cbitsAt (c : Symbol) : (s.addResponse rw).cbitsAt c = s.cbitsAt c := rfl
@[simp] theorem addResponse_statusView (sel : BitVec 8) : statusView (s.addResponse rw) sel = statusView s sel := rfl

end

section
variable {s t : State}

/-! ### Inversion: the ways a read ends -/

theorem rdn_cases {sel : BitVec 8} {idx : NodeIdx} (h : exec (.rdn sel idx) s = .next t) :
    (rdnInRange sel idx = false ∧ t = respond .errRange 0 0 s) ∨
    (rdnInRange sel idx = true ∧ s.tv = false ∧ t = respond .errSeq 0 0 s) ∨
    (rdnInRange sel idx = true ∧ s.tv = true ∧ ∃ nd, nodeAt s.arena idx = .ok nd ∧
      t = respond .ok 0 (nodeData sel nd) s) := by
  simp only [exec, execRdn] at h
  split at h
  · next hrange =>
    split at h
    · next htv =>
      split at h
      · next nd hnd => cases h; exact .inr (.inr ⟨hrange, htv, nd, hnd, rfl⟩)
      · cases h
    · next htv => cases h; exact .inr (.inl ⟨hrange, by simpa using htv, rfl⟩)
  · next hrange => cases h; exact .inl ⟨by simpa using hrange, rfl⟩

theorem rdcl_cases {c : Symbol} (h : exec (.rdcl c) s = .next t) :
    (s.cv = false ∧ t = respond .errSeq 0 0 s) ∨
    (s.cv = true ∧ ∃ len, s.clenAt c = .ok len ∧ t = respond .ok 0 (len.setWidth 48) s) := by
  simp only [exec, execRdcl] at h
  split at h
  · next hcv =>
    split at h
    · next len hlen => cases h; exact .inr ⟨hcv, len, hlen, rfl⟩
    · cases h
  · next hcv => cases h; exact .inl ⟨by simpa using hcv, rfl⟩

theorem rdcw_cases {c : Symbol} {w : BitVec 3} (h : exec (.rdcw c w) s = .next t) :
    (s.cv = false ∧ t = respond .errSeq 0 0 s) ∨
    (s.cv = true ∧ ∃ bits, s.cbitsAt c = .ok bits ∧ t = respond .ok 0 ((codeSlice bits w).setWidth 48) s) := by
  simp only [exec, execRdcw] at h
  split at h
  · next hcv =>
    split at h
    · next bits hbits => cases h; exact .inr ⟨hcv, bits, hbits, rfl⟩
    · cases h
  · next hcv => cases h; exact .inl ⟨by simpa using hcv, rfl⟩

theorem rds_cases {sel : BitVec 8} (h : exec (.rds sel) s = .next t) :
    (rdsInRange sel = false ∧ t = respond .errRange 0 0 s) ∨
    (rdsInRange sel = true ∧ t = respond .ok 0 (statusView s sel) s) := by
  simp only [exec, execRds] at h
  split at h
  · next hrange => cases h; exact .inr ⟨hrange, rfl⟩
  · next hrange => cases h; exact .inl ⟨by simpa using hrange, rfl⟩

/-! ### A read adds a response that no response changes -/

/-- A read that completes adds one response, and gives the same response whatever response is added before it. -/
theorem read_adds_same_response {i : Instr} (hread : isRead i) (h : exec i s = .next t) :
    ∃ rw, t = s.addResponse rw ∧ ∀ q, exec i (s.addResponse q) = .next ((s.addResponse q).addResponse rw) := by
  cases i with
  | rdf c => cases h; exact ⟨_, rfl, fun _ => rfl⟩
  | rdn sel idx =>
    rcases rdn_cases h with ⟨hrange, rfl⟩ | ⟨hrange, htv, rfl⟩ | ⟨hrange, htv, nd, hnd, rfl⟩
    · exact ⟨_, rfl, fun q => by simp [exec, execRdn, hrange, answer, respond_eq_addResponse]⟩
    · exact ⟨_, rfl, fun q => by simp [exec, execRdn, hrange, htv, answer, respond_eq_addResponse]⟩
    · exact ⟨_, rfl, fun q => by simp [exec, execRdn, hrange, htv, hnd, answerData, respond_eq_addResponse]⟩
  | rdcl c =>
    rcases rdcl_cases h with ⟨hcv, rfl⟩ | ⟨hcv, len, hlen, rfl⟩
    · exact ⟨_, rfl, fun q => by simp [exec, execRdcl, hcv, answer, respond_eq_addResponse]⟩
    · exact ⟨_, rfl, fun q => by simp [exec, execRdcl, hcv, hlen, answerData, respond_eq_addResponse]⟩
  | rdcw c w =>
    rcases rdcw_cases h with ⟨hcv, rfl⟩ | ⟨hcv, bits, hbits, rfl⟩
    · exact ⟨_, rfl, fun q => by simp [exec, execRdcw, hcv, answer, respond_eq_addResponse]⟩
    · exact ⟨_, rfl, fun q => by simp [exec, execRdcw, hcv, hbits, answerData, respond_eq_addResponse]⟩
  | rds sel =>
    rcases rds_cases h with ⟨hrange, rfl⟩ | ⟨hrange, rfl⟩
    · exact ⟨_, rfl, fun q => by simp [exec, execRds, hrange, answer, respond_eq_addResponse]⟩
    · exact ⟨_, rfl, fun q => by simp [exec, execRds, hrange, answerData, respond_eq_addResponse]⟩
  | _ => exact hread.elim

end

/-- Settles O52: the read again is the read of the state with the first read's response added. -/
theorem readsHaveNoSideEffect : Obligations.ReadsHaveNoSideEffect := by
  intro i s t hread h
  obtain ⟨rw, rfl, hagain⟩ := read_adds_same_response hread h
  exact ⟨rw, rfl, hagain rw⟩

end Sys2Proof.Machine

/-! Proofs of the encoding family (30_encoding.md): the encoder and the decoder are inverse to each other, the rows of the
opcode map are the legal words, and which commands are refused. A word is taken apart into its four fields and put together
again by `cmdWord_fields`; what each format asks of the operand bits is said once below. -/

namespace Sys2Proof

/-! ### The bits of a field above its `k` low bits -/

section
variable {k n : Nat}

theorem extractLsb'_high_eq_zero_iff (d : BitVec (k + n)) : d.extractLsb' k n = 0 ↔ d.toNat < 2 ^ k := by
  have hlt : d.toNat / 2 ^ k < 2 ^ n := Nat.div_lt_of_lt_mul (pow_add 2 k n ▸ d.isLt)
  rw [← BitVec.toNat_inj, BitVec.extractLsb'_toNat, Nat.shiftRight_eq_div_pow, Nat.mod_eq_of_lt hlt]
  simp [Nat.div_eq_zero_iff]

theorem extractLsb'_high_setWidth (x : BitVec k) : (x.setWidth (k + n)).extractLsb' k n = 0 := by
  rw [extractLsb'_high_eq_zero_iff, BitVec.toNat_setWidth]
  exact Nat.mod_lt_of_lt x.isLt

theorem setWidth_extractLsb'_low {d : BitVec (k + n)} (h : d.extractLsb' k n = 0) :
    (d.extractLsb' 0 k).setWidth (k + n) = d := by
  have hlt : d.toNat < 2 ^ k := (extractLsb'_high_eq_zero_iff d).mp h
  apply BitVec.eq_of_toNat_eq
  rw [BitVec.toNat_setWidth, BitVec.extractLsb'_toNat, Nat.shiftRight_zero, Nat.mod_eq_of_lt hlt, Nat.mod_eq_of_lt d.isLt]

end

/-- `idx` is the low part of `d` (R81, R84). -/
theorem idxField_eq (cw : CmdWord) : idxField cw = (dField cw).extractLsb' 0 9 := by
  apply BitVec.eq_of_toNat_eq
  simp only [idxField, dField, BitVec.extractLsb'_toNat, Nat.shiftRight_zero]
  omega

/-- `w` is the low part of `d` (R81, R84). -/
theorem wField_eq (cw : CmdWord) : wField cw = (dField cw).extractLsb' 0 3 := by
  apply BitVec.eq_of_toNat_eq
  simp only [wField, dField, BitVec.extractLsb'_toNat, Nat.shiftRight_zero]
  omega

/-! ### Decoding an encoded word (R82, R92) -/

section
variable (op : BitVec 4) (a : BitVec 8)

theorem decode_cmdWord (d : BitVec 32) : decode (cmdWord op a d) = decodeOp (cmdWord op a d) := by simp [decode]

theorem formatN_cmdWord (i : Instr) : formatN (cmdWord op 0 0) i = .ok i := by simp [formatN]

theorem formatA_cmdWord (mk : BitVec 8 → Instr) : formatA (cmdWord op a 0) mk = .ok (mk a) := by simp [formatA]

theorem formatAD_cmdWord (d : BitVec 32) (mk : BitVec 8 → BitVec 32 → Instr) :
    formatAD (cmdWord op a d) mk = .ok (mk a d) := by simp [formatAD]

theorem formatAI_cmdWord (idx : NodeIdx) (mk : BitVec 8 → NodeIdx → Instr) :
    formatAI (cmdWord op a (idx.setWidth 32)) mk = .ok (mk a idx) := by
  have hhigh : (idx.setWidth 32).extractLsb' 9 23 = 0 := extractLsb'_high_setWidth idx
  simp only [formatAI, dField_cmdWord, hhigh, aField_cmdWord, idxField_cmdWord, if_true]

theorem formatAW_cmdWord (w : BitVec 3) (mk : BitVec 8 → BitVec 3 → Instr) :
    formatAW (cmdWord op a (w.setWidth 32)) mk = .ok (mk a w) := by
  have hhigh : (w.setWidth 32).extractLsb' 3 29 = 0 := extractLsb'_high_setWidth w
  simp only [formatAW, dField_cmdWord, hhigh, aField_cmdWord, wField_cmdWord, if_true]

end

/-- Settles O2: the opcode selects the row, and the row's format gives the operands back. -/
theorem decodeOfEncodeIsTheCommand : Obligations.DecodeOfEncodeIsTheCommand := by
  intro i
  cases i <;> simp only [encode, decode_cmdWord, decodeOp, opField_cmdWord]
  case ldf s count => exact formatAD_cmdWord ..
  case rdn sel idx => exact formatAI_cmdWord ..
  case rdcw s w => exact formatAW_cmdWord ..
  case rdf | rdcl | dbit | dbyte | rds => exact formatA_cmdWord ..
  case nop | clr | build | gen | dstart | dend => exact formatN_cmdWord ..

/-! ### A word whose unused bits are 0 is an encoding -/

section
variable {cw : CmdWord} {op : BitVec 4} (hrsv : rsvField cw = 0) (hop : opField cw = op)
include hrsv hop

theorem cmdWord_of_noOperands (ha : aField cw = 0) (hd : dField cw = 0) : cmdWord op 0 0 = cw := by
  rw [← hop, ← ha, ← hd, cmdWord_fields cw hrsv]

theorem cmdWord_of_selector (hd : dField cw = 0) : cmdWord op (aField cw) 0 = cw := by
  rw [← hop, ← hd, cmdWord_fields cw hrsv]

theorem cmdWord_of_count : cmdWord op (aField cw) (dField cw) = cw := by rw [← hop, cmdWord_fields cw hrsv]

theorem cmdWord_of_index (hd : (dField cw).extractLsb' 9 23 = 0) :
    cmdWord op (aField cw) ((idxField cw).setWidth 32) = cw := by
  have hlow : (idxField cw).setWidth 32 = dField cw := idxField_eq cw ▸ setWidth_extractLsb'_low (k := 9) (n := 23) hd
  rw [← hop, hlow, cmdWord_fields cw hrsv]

theorem cmdWord_of_wordIndex (hd : (dField cw).extractLsb' 3 29 = 0) :
    cmdWord op (aField cw) ((wField cw).setWidth 32) = cw := by
  have hlow : (wField cw).setWidth 32 = dField cw := wField_eq cw ▸ setWidth_extractLsb'_low (k := 3) (n := 29) hd
  rw [← hop, hlow, cmdWord_fields cw hrsv]

end

/-! ### Encoding a decoded word (R85) -/

section
variable {cw : CmdWord} {op : BitVec 4} {i : Instr} (hrsv : rsvField cw = 0) (hop : (opField cw).toNat = op.toNat)
include hrsv hop

theorem encode_of_formatN {j : Instr} (henc : encode j = cmdWord op 0 0) (h : formatN cw j = .ok i) : encode i = cw := by
  unfold formatN at h
  split at h <;> cases h
  next hz => exact henc.trans (cmdWord_of_noOperands hrsv (BitVec.eq_of_toNat_eq hop) hz.1 hz.2)

theorem encode_of_formatA {mk : BitVec 8 → Instr} (henc : ∀ a, encode (mk a) = cmdWord op a 0)
    (h : formatA cw mk = .ok i) : encode i = cw := by
  unfold formatA at h
  split at h <;> cases h
  next hd => exact (henc _).trans (cmdWord_of_selector hrsv (BitVec.eq_of_toNat_eq hop) hd)

theorem encode_of_formatAD {mk : BitVec 8 → BitVec 32 → Instr} (henc : ∀ a d, encode (mk a d) = cmdWord op a d)
    (h : formatAD cw mk = .ok i) : encode i = cw := by
  cases h
  exact (henc _ _).trans (cmdWord_of_count hrsv (BitVec.eq_of_toNat_eq hop))

theorem encode_of_formatAI {mk : BitVec 8 → NodeIdx → Instr}
    (henc : ∀ a idx, encode (mk a idx) = cmdWord op a (idx.setWidth 32)) (h : formatAI cw mk = .ok i) : encode i = cw := by
  unfold formatAI at h
  split at h <;> cases h
  next hd => exact (henc _ _).trans (cmdWord_of_index hrsv (BitVec.eq_of_toNat_eq hop) hd)

theorem encode_of_formatAW {mk : BitVec 8 → BitVec 3 → Instr}
    (henc : ∀ a w, encode (mk a w) = cmdWord op a (w.setWidth 32)) (h : formatAW cw mk = .ok i) : encode i = cw := by
  unfold formatAW at h
  split at h <;> cases h
  next hd => exact (henc _ _).trans (cmdWord_of_wordIndex hrsv (BitVec.eq_of_toNat_eq hop) hd)

end

theorem encode_of_decodeOp {cw : CmdWord} {i : Instr} (hrsv : rsvField cw = 0) (h : decodeOp cw = .ok i) :
    encode i = cw := by
  unfold decodeOp at h
  split at h
  case h_1 hop => exact encode_of_formatN (op := 0x0) hrsv hop rfl h
  case h_2 hop => exact encode_of_formatN (op := 0x1) hrsv hop rfl h
  case h_3 hop => exact encode_of_formatAD (op := 0x2) hrsv hop (fun _ _ => rfl) h
  case h_4 hop => exact encode_of_formatA (op := 0x3) hrsv hop (fun _ => rfl) h
  case h_5 hop => exact encode_of_formatN (op := 0x4) hrsv hop rfl h
  case h_6 hop => exact encode_of_formatAI (op := 0x5) hrsv hop (fun _ _ => rfl) h
  case h_7 hop => exact encode_of_formatN (op := 0x6) hrsv hop rfl h
  case h_8 hop => exact encode_of_formatA (op := 0x7) hrsv hop (fun _ => rfl) h
  case h_9 hop => exact encode_of_formatAW (op := 0x8) hrsv hop (fun _ _ => rfl) h
  case h_10 hop => exact encode_of_formatN (op := 0x9) hrsv hop rfl h
  case h_11 hop => exact encode_of_formatA (op := 0xA) hrsv hop (fun _ => rfl) h
  case h_12 hop => exact encode_of_formatA (op := 0xB) hrsv hop (fun _ => rfl) h
  case h_13 hop => exact encode_of_formatN (op := 0xC) hrsv hop rfl h
  case h_14 hop => exact encode_of_formatA (op := 0xD) hrsv hop (fun _ => rfl) h
  case h_15 => cases h

/-- Settles O3: a word that decodes has `rsv` 0, and its format leaves no other bit free than the operands'. -/
theorem encodeOfDecodeIsTheWord : Obligations.EncodeOfDecodeIsTheWord := by
  intro cw i h
  unfold decode at h
  split at h
  · next hrsv => exact encode_of_decodeOp hrsv h
  · cases h

/-- The legal words are the encodings, each of one command. -/
theorem decode_eq_ok_iff {cw : CmdWord} {i : Instr} : decode cw = .ok i ↔ encode i = cw :=
  ⟨encodeOfDecodeIsTheWord cw i, fun h => h ▸ decodeOfEncodeIsTheCommand i⟩

/-! ### The rows of the opcode map (R83) -/

/-- Every command's word matches the command's own row. -/
theorem encode_matches_row : ∀ i : Instr, Laws.EncodesItsRow.Statement i
  | .nop => Laws.EncodesItsRow.nop
  | .clr => Laws.EncodesItsRow.clr
  | .ldf s count => Laws.EncodesItsRow.ldf s count
  | .rdf s => Laws.EncodesItsRow.rdf s
  | .build => Laws.EncodesItsRow.build
  | .rdn sel idx => Laws.EncodesItsRow.rdn sel idx
  | .gen => Laws.EncodesItsRow.gen
  | .rdcl s => Laws.EncodesItsRow.rdcl s
  | .rdcw s w => Laws.EncodesItsRow.rdcw s w
  | .dstart => Laws.EncodesItsRow.dstart
  | .dbit v => Laws.EncodesItsRow.dbit v
  | .dbyte x => Laws.EncodesItsRow.dbyte x
  | .dend => Laws.EncodesItsRow.dend
  | .rds sel => Laws.EncodesItsRow.rds sel

section
variable {cw mask : CmdWord} {op : BitVec 4}

/-- A field of the masked word is the field of the word under the field of the mask. -/
theorem opField_and : opField (cw &&& mask) = opField cw &&& opField mask := BitVec.extractLsb'_and
theorem rsvField_and : rsvField (cw &&& mask) = rsvField cw &&& rsvField mask := BitVec.extractLsb'_and
theorem aField_and : aField (cw &&& mask) = aField cw &&& aField mask := BitVec.extractLsb'_and
theorem dField_and : dField (cw &&& mask) = dField cw &&& dField mask := BitVec.extractLsb'_and

/-- A match under a mask that covers `op` and `rsv` fixes both, and the operand bits that the mask covers are 0. -/
theorem fields_of_match (hmaskOp : opField mask = BitVec.allOnes 4) (hmaskRsv : rsvField mask = BitVec.allOnes 4)
    (h : cw &&& mask = cmdWord op 0 0) :
    opField cw = op ∧ rsvField cw = 0 ∧ aField cw &&& aField mask = 0 ∧ dField cw &&& dField mask = 0 := by
  refine ⟨?_, ?_, ?_, ?_⟩
  · rw [← opField_cmdWord op 0 0, ← h, opField_and, hmaskOp, BitVec.and_allOnes]
  · rw [← rsvField_cmdWord op 0 0, ← h, rsvField_and, hmaskRsv, BitVec.and_allOnes]
  · rw [← aField_and, h, aField_cmdWord]
  · rw [← dField_and, h, dField_cmdWord]

/-! A word that matches the mask of a format is the encoding of its operands in that format. -/

theorem cmdWord_of_matchN (h : cw &&& 0xFFFFFFFFFFFF = cmdWord op 0 0) : cmdWord op 0 0 = cw := by
  obtain ⟨hop, hrsv, ha, hd⟩ := fields_of_match (by decide) (by decide) h
  exact cmdWord_of_noOperands hrsv hop (BitVec.and_allOnes.symm.trans ha) (BitVec.and_allOnes.symm.trans hd)

theorem cmdWord_of_matchA (h : cw &&& 0xFF00FFFFFFFF = cmdWord op 0 0) : cmdWord op (aField cw) 0 = cw := by
  obtain ⟨hop, hrsv, -, hd⟩ := fields_of_match (by decide) (by decide) h
  exact cmdWord_of_selector hrsv hop (BitVec.and_allOnes.symm.trans hd)

theorem cmdWord_of_matchAD (h : cw &&& 0xFF0000000000 = cmdWord op 0 0) : cmdWord op (aField cw) (dField cw) = cw := by
  obtain ⟨hop, hrsv, -⟩ := fields_of_match (by decide) (by decide) h
  exact cmdWord_of_count hrsv hop

theorem cmdWord_of_matchAI (h : cw &&& 0xFF00FFFFFE00 = cmdWord op 0 0) :
    cmdWord op (aField cw) ((idxField cw).setWidth 32) = cw := by
  obtain ⟨hop, hrsv, -, hd⟩ := fields_of_match (by decide) (by decide) h
  have hhigh := congrArg (BitVec.extractLsb' 9 23) hd
  rw [BitVec.extractLsb'_and] at hhigh
  exact cmdWord_of_index hrsv hop (BitVec.and_allOnes.symm.trans hhigh)

theorem cmdWord_of_matchAW (h : cw &&& 0xFF00FFFFFFF8 = cmdWord op 0 0) :
    cmdWord op (aField cw) ((wField cw).setWidth 32) = cw := by
  obtain ⟨hop, hrsv, -, hd⟩ := fields_of_match (by decide) (by decide) h
  have hhigh := congrArg (BitVec.extractLsb' 3 29) hd
  rw [BitVec.extractLsb'_and] at hhigh
  exact cmdWord_of_wordIndex hrsv hop (BitVec.and_allOnes.symm.trans hhigh)

end

/-- A word that matches a row is the encoding of a command of that row. -/
theorem encode_of_match {cw : CmdWord} {r : OpcodeRow} (hr : r ∈ opcodeMap) (h : cw &&& r.mask = r.pattern) :
    ∃ i, encode i = cw ∧ i.mnemonic = r.mnemonic := by
  simp only [opcodeMap, List.mem_cons, List.not_mem_nil, or_false] at hr
  rcases hr with rfl | rfl | rfl | rfl | rfl | rfl | rfl | rfl | rfl | rfl | rfl | rfl | rfl | rfl
  · exact ⟨.nop, cmdWord_of_matchN h, rfl⟩
  · exact ⟨.clr, cmdWord_of_matchN h, rfl⟩
  · exact ⟨.ldf .., cmdWord_of_matchAD h, rfl⟩
  · exact ⟨.rdf _, cmdWord_of_matchA h, rfl⟩
  · exact ⟨.build, cmdWord_of_matchN h, rfl⟩
  · exact ⟨.rdn .., cmdWord_of_matchAI h, rfl⟩
  · exact ⟨.gen, cmdWord_of_matchN h, rfl⟩
  · exact ⟨.rdcl _, cmdWord_of_matchA h, rfl⟩
  · exact ⟨.rdcw .., cmdWord_of_matchAW h, rfl⟩
  · exact ⟨.dstart, cmdWord_of_matchN h, rfl⟩
  · exact ⟨.dbit _, cmdWord_of_matchA h, rfl⟩
  · exact ⟨.dbyte _, cmdWord_of_matchA h, rfl⟩
  · exact ⟨.dend, cmdWord_of_matchN h, rfl⟩
  · exact ⟨.rds _, cmdWord_of_matchA h, rfl⟩

/-- Rows are told apart by their mnemonics. -/
theorem row_eq_of_mnemonic : ∀ r ∈ opcodeMap, ∀ q ∈ opcodeMap, r.mnemonic = q.mnemonic → r = q := by decide

/-- Settles O4: a word is the encoding of at most one command, and that command has one row. -/
theorem wordSpellsACommandIffItsRowMatches : Obligations.WordSpellsACommandIffItsRowMatches := by
  refine ⟨fun cw i h => ?_, fun cw r hr h => ?_, fun cw r hr q hq hcr hcq => ?_⟩
  · exact decode_eq_ok_iff.mp h ▸ encode_matches_row i
  · obtain ⟨i, hi, hname⟩ := encode_of_match hr h
    exact ⟨i, decode_eq_ok_iff.mpr hi, hname⟩
  · obtain ⟨i, hi, hir⟩ := encode_of_match hr hcr
    obtain ⟨j, hj, hjq⟩ := encode_of_match hq hcq
    have hij : Except.ok (ε := Reject) i = .ok j := (decode_eq_ok_iff.mpr hi).symm.trans (decode_eq_ok_iff.mpr hj)
    cases hij
    exact row_eq_of_mnemonic r hr q hq (hir.symm.trans hjq)

/-! ### Illegal words (R85) -/

/-- The illegal words are those that the decoder rejects. -/
theorem matches_no_row_iff {cw : CmdWord} :
    (∀ r ∈ opcodeMap, cw &&& r.mask ≠ r.pattern) ↔ ∃ e, decode cw = .error e := by
  obtain ⟨hrow, hdecodes, -⟩ := wordSpellsACommandIffItsRowMatches
  refine ⟨fun hno => ?_, fun ⟨e, he⟩ r hr hmatch => ?_⟩
  · cases hdec : decode cw with
    | error e => exact ⟨e, rfl⟩
    | ok i =>
      obtain ⟨r, hr, -, hmatch⟩ := hrow cw i hdec
      exact absurd hmatch (hno r hr)
  · obtain ⟨i, hi, -⟩ := hdecodes cw r hr hmatch
    rw [he] at hi
    cases hi

/-- A must-be-zero operand bit of the word's format is 1 (R82): the formats N, A, AI and AW. -/
def OperandBitSet (cw : CmdWord) : Prop :=
  (opField cw ∈ [0x0, 0x1, 0x4, 0x6, 0x9, 0xC] ∧ (aField cw ≠ 0 ∨ dField cw ≠ 0)) ∨
  (opField cw ∈ [0x3, 0x7, 0xA, 0xB, 0xD] ∧ dField cw ≠ 0) ∨
  (opField cw = 0x5 ∧ 2 ^ 9 ≤ (dField cw).toNat) ∨ (opField cw = 0x8 ∧ 2 ^ 3 ≤ (dField cw).toNat)

/-! What each format rejects. -/

section
variable {cw : CmdWord}

theorem formatN_rejects_iff {i : Instr} : (∃ e, formatN cw i = .error e) ↔ aField cw ≠ 0 ∨ dField cw ≠ 0 := by
  unfold formatN
  split <;> simp_all [Decidable.or_iff_not_imp_left]

theorem formatA_rejects_iff {mk : BitVec 8 → Instr} : (∃ e, formatA cw mk = .error e) ↔ dField cw ≠ 0 := by
  unfold formatA
  split <;> simp_all

theorem formatAI_rejects_iff {mk : BitVec 8 → NodeIdx → Instr} :
    (∃ e, formatAI cw mk = .error e) ↔ 2 ^ 9 ≤ (dField cw).toNat := by
  rw [← not_lt, ← extractLsb'_high_eq_zero_iff (k := 9) (n := 23)]
  unfold formatAI
  split <;> simp_all

theorem formatAW_rejects_iff {mk : BitVec 8 → BitVec 3 → Instr} :
    (∃ e, formatAW cw mk = .error e) ↔ 2 ^ 3 ≤ (dField cw).toNat := by
  rw [← not_lt, ← extractLsb'_high_eq_zero_iff (k := 3) (n := 29)]
  unfold formatAW
  split <;> simp_all

theorem decodeOp_rejects_iff : (∃ e, decodeOp cw = .error e) ↔ 0xE ≤ (opField cw).toNat ∨ OperandBitSet cw := by
  unfold decodeOp OperandBitSet
  split
  case h_1 hop | h_2 hop | h_5 hop | h_7 hop | h_10 hop | h_13 hop =>
    simp [formatN_rejects_iff, ← BitVec.toNat_inj, hop]
  case h_3 hop => simp [formatAD, ← BitVec.toNat_inj, hop]
  case h_4 hop | h_8 hop | h_11 hop | h_12 hop | h_14 hop => simp [formatA_rejects_iff, ← BitVec.toNat_inj, hop]
  case h_6 hop => simp [formatAI_rejects_iff, ← BitVec.toNat_inj, hop]
  case h_9 hop => simp [formatAW_rejects_iff, ← BitVec.toNat_inj, hop]
  case h_15 =>
    simp only [imp_false] at *
    exact iff_of_true ⟨_, rfl⟩ (.inl (by omega))

theorem decode_rejects_iff :
    (∃ e, decode cw = .error e) ↔ 0xE ≤ (opField cw).toNat ∨ rsvField cw ≠ 0 ∨ OperandBitSet cw := by
  unfold decode
  split
  · next hrsv => simp [decodeOp_rejects_iff, hrsv]
  · next hrsv => exact iff_of_true ⟨_, rfl⟩ (.inr (.inl hrsv))

end

end Sys2Proof

namespace Sys2Proof.Machine

/-! A refusal adds its status, with `ne` 0 and data 0, and nothing else (R85, R88). -/

theorem answerIllegal_eq (s : State) : answerIllegal s = s.addResponse 0x1000000000000000 := rfl
theorem answer_errSeq (s : State) : answer .errSeq s = .next (s.addResponse 0x2000000000000000) := rfl
theorem answer_errRange (s : State) : answer .errRange s = .next (s.addResponse 0x4000000000000000) := rfl

/-- Settles O8: the words that match no row are those that the decoder rejects, and a rejected word is only answered. -/
theorem illegalWordIsAnsweredAndChangesNothing : Obligations.IllegalWordIsAnsweredAndChangesNothing := by
  refine ⟨fun cw => matches_no_row_iff.trans decode_rejects_iff, fun s cw rest hin hno => ?_⟩
  obtain ⟨e, he⟩ := matches_no_row_iff.mp hno
  have htake : takeInput s = some (.command cw, { s with inputs := rest }) := takeInput_eq_some.mpr ⟨rest, hin, rfl⟩
  simp only [step, htake, he, answerIllegal_eq]

/-! ### Words written out -/

/-- Settles O1: the decoder is run on the twelve fixed words. -/
theorem specWordsDecode : Obligations.SpecWordsDecode := by
  unfold Obligations.SpecWordsDecode
  decide

theorem decodeTableWord_eq_some {w : Nat} {i : Instr} (h : decodeTableWord 48 w = some i) :
    decode (BitVec.ofNat 48 (w % 2 ^ 48)) = .ok i := by
  rw [decodeTableWord, if_pos (Nat.le_refl 48)] at h
  cases hdec : decode (BitVec.ofNat 48 (w % 2 ^ 48)) <;> rw [hdec] at h <;> cases h
  rfl

/-- Settles O6: the presented word stands at the head of the port, and taking it gives the state before back. -/
theorem fetchWordIsRunNext : Obligations.FetchWordIsRunNext := by
  intro s w i _ h
  exact stepRunsTheDecodedCommand (s.withFetchWord 48 w) _ s.inputs i rfl (decodeTableWord_eq_some h)

/-- Settles O7: the number of a word is the sum of its fields at their places. -/
theorem encodingsAreTheSpecs : Obligations.EncodingsAreTheSpecs := by
  intro a count idx w
  have hidx : (idx.setWidth 32).toNat = idx.toNat := BitVec.toNat_setWidth_of_le (by decide)
  have hw : (w.setWidth 32).toNat = w.toNat := BitVec.toNat_setWidth_of_le (by decide)
  simp [encode, cmdWord_toNat, hidx, hw]

/-! ### The fields of a response word (R87) -/

section
variable (st : Status) (ne : Nat) (data : RespData)

@[simp] theorem stField_respWord : stField (respWord st ne data) = st.code := by
  apply BitVec.eq_of_toNat_eq
  simp only [stField, BitVec.extractLsb'_toNat, respWord_toNat, Nat.shiftRight_eq_div_pow]
  have := st.code.isLt; have := data.isLt
  omega

theorem neField_respWord : (neField (respWord st ne data)).toNat = ne % 16 := by
  simp only [neField, BitVec.extractLsb'_toNat, respWord_toNat, Nat.shiftRight_eq_div_pow]
  have := data.isLt
  omega

theorem zeroField_respWord : zeroField (respWord st ne data) = 0 := by
  apply BitVec.eq_of_toNat_eq
  simp only [zeroField, BitVec.extractLsb'_toNat, respWord_toNat, Nat.shiftRight_eq_div_pow]
  have := data.isLt
  rw [show (0 : BitVec 8).toNat = 0 from rfl]
  omega

theorem dataField_respWord : dataField (respWord st ne data) = data := by
  apply BitVec.eq_of_toNat_eq
  simp only [dataField, BitVec.extractLsb'_toNat, respWord_toNat, Nat.shiftRight_eq_div_pow]
  have := data.isLt
  omega

end

/-- Settles O10: each field read back from the word, `ne` without loss since it is below 16. -/
theorem responseWordLayout : Obligations.ResponseWordLayout := by
  refine ⟨fun st ne data hne => ⟨stField_respWord .., ?_, zeroField_respWord .., dataField_respWord ..⟩,
    rfl, rfl, rfl, rfl, rfl, rfl⟩
  rw [neField_respWord, Nat.mod_eq_of_lt (by omega)]

/-! ### Operands that name nothing (R89) -/

/-- The block's range check is the check of `Instr.wellFormed`. -/
theorem rdnInRange_eq (sel : BitVec 8) (idx : NodeIdx) : rdnInRange sel idx = (Instr.rdn sel idx).wellFormed := by
  have hidx : (idx != 511) = decide (idx.toNat < 511) := by
    rw [Bool.eq_iff_iff, bne_iff_ne, decide_eq_true_iff]
    bv_omega
  rw [rdnInRange, Instr.wellFormed, rdnNames, hidx]

theorem rdsInRange_eq (sel : BitVec 8) : rdsInRange sel = (Instr.rds sel).wellFormed := rfl

theorem not_wellFormed_iff (i : Instr) : ¬ i.WellFormed ↔
    (∃ sel idx, i = .rdn sel idx ∧ (1 < sel.toNat ∨ idx = 511)) ∨ ∃ sel, i = .rds sel ∧ 3 < sel.toNat := by
  cases i with
  | rdn sel idx =>
    have hidx : 511 ≤ idx.toNat ↔ idx = 511 := by bv_omega
    simp [Instr.wellFormed, rdnNames, imp_iff_not_or, hidx]
  | rds sel => simp [Instr.wellFormed, rdsNames]
  | _ => simp [Instr.wellFormed]

theorem exec_ill_formed {i : Instr} (s : State) (h : ¬ i.WellFormed) :
    exec i s = .next (s.addResponse 0x4000000000000000) := by
  cases i with
  | rdn sel idx =>
    have hrange : rdnInRange sel idx = false := (rdnInRange_eq sel idx).trans (Bool.eq_false_of_not_eq_true h)
    simp only [exec, execRdn, hrange, Bool.false_eq_true, if_false, answer_errRange]
  | rds sel =>
    have hrange : rdsInRange sel = false := Bool.eq_false_of_not_eq_true h
    simp only [exec, execRds, hrange, Bool.false_eq_true, if_false, answer_errRange]
  | _ => exact absurd rfl h

/-! ### Refusals for want of a flag (R88, R212) -/

/-- Settles O47: with the range check passed, the flag is the next thing that each of these commands looks at. -/
theorem missingPrerequisiteIsRefused : Obligations.MissingPrerequisiteIsRefused := by
  refine fun i s hwf => ⟨fun htv hi => ?_, fun hcv hi => ?_, fun hden hi => ?_⟩
  · rcases hi with rfl | rfl | ⟨sel, idx, rfl⟩
    · simp only [exec, execGen, htv, Bool.false_eq_true, if_false, answer_errSeq]
    · simp only [exec, execDstart, htv, Bool.false_eq_true, if_false, answer_errSeq]
    · have hrange : rdnInRange sel idx = true := (rdnInRange_eq sel idx).trans hwf
      simp only [exec, execRdn, hrange, htv, Bool.false_eq_true, if_false, if_true, answer_errSeq]
  · rcases hi with ⟨c, rfl⟩ | ⟨c, w, rfl⟩
    · simp only [exec, execRdcl, hcv, Bool.false_eq_true, if_false, answer_errSeq]
    · simp only [exec, execRdcw, hcv, Bool.false_eq_true, if_false, answer_errSeq]
  · cases i with
    | dbit v => simp only [exec, execDbit, hden, Bool.false_eq_true, if_false, answer_errSeq]
    | dbyte x => simp only [exec, execDbyte, hden, Bool.false_eq_true, if_false, answer_errSeq]
    | dend => simp only [exec, execDend, hden, Bool.false_eq_true, if_false, answer_errSeq]
    | _ => exact hi.elim

/-! ### Which statuses a command answers with, and what it has changed then (R88) -/

section
variable {s t : State}

/-! The ways LDF, BUILD and GEN end (R110, R125, R153). -/

theorem ldf_cases {c : Symbol} {count : Count} (h : exec (.ldf c count) s = .next t) :
    (s.active = true ∧ t = respond .errBusy 0 0 s) ∨
    (s.active = false ∧ t = respond .ok 0 0 (s.setFreq c count).clearValid) := by
  simp only [exec, execLdf] at h
  split at h
  · next ha => cases h; exact .inl ⟨ha, rfl⟩
  · next ha => cases h; exact .inr ⟨by simpa using ha, rfl⟩

theorem build_cases (h : exec .build s = .next t) :
    (s.active = true ∧ t = respond .errBusy 0 0 s) ∨
    (s.active = false ∧ t = respond .ok 0 0 (s.installForest (buildForest s.freq))) := by
  simp only [exec, execBuild] at h
  split at h
  · next ha => cases h; exact .inl ⟨ha, rfl⟩
  · next ha => cases h; exact .inr ⟨by simpa using ha, rfl⟩

theorem gen_cases (h : exec .gen s = .next t) :
    (s.tv = false ∧ t = respond .errSeq 0 0 s) ∨
    (s.tv = true ∧ ∃ codes, visitTree s.arena = .ok codes ∧ t = respond .ok 0 0 (s.installCodes codes)) := by
  simp only [exec, execGen] at h
  split at h
  · next htv =>
    split at h
    · next codes hcodes => cases h; exact .inr ⟨htv, codes, hcodes, rfl⟩
    · cases h
  · next htv => cases h; exact .inl ⟨by simpa using htv, rfl⟩

/-- The command `i` answers with status `st` and, where that is a refusal of code 1 to 4, adds nothing but the response;
ERR_RANGE answers only what is ill-formed (R88, R89). -/
structure AnswersStatus (i : Instr) (s t : State) (st : Status) : Prop where
  responds : ∃ u ne data, t = respond st ne data u ∧ u.responses = s.responses ∧ (st = .ok ∨ st = .errCorrupt ∨ u = s)
  range : st = .errRange → ¬ i.WellFormed

variable {i : Instr}

theorem answersStatus_refused {st : Status} (hrange : st = .errRange → ¬ i.WellFormed) :
    AnswersStatus i s (respond st 0 0 s) st :=
  ⟨⟨s, 0, 0, rfl, rfl, .inr (.inr rfl)⟩, hrange⟩

theorem answersStatus_ok {u : State} {ne : Nat} {data : RespData} (hu : u.responses = s.responses) :
    AnswersStatus i s (respond .ok ne data u) .ok :=
  ⟨⟨u, ne, data, rfl, hu, .inl rfl⟩, fun h => by cases h⟩

theorem answersStatus_corrupt {c : Cause} : AnswersStatus i s (raiseCorrupt c s) .errCorrupt :=
  ⟨⟨_, 0, 0, rfl, rfl, .inr (.inl rfl)⟩, fun h => by cases h⟩

/-- By command, with the ways each one ends. -/
theorem exec_answersStatus (h : exec i s = .next t) : ∃ st, AnswersStatus i s t st := by
  cases i with
  | nop => cases h; exact ⟨_, answersStatus_ok rfl⟩
  | clr => cases h; exact ⟨_, answersStatus_ok rfl⟩
  | rdf c => cases h; exact ⟨_, answersStatus_ok rfl⟩
  | ldf c count =>
    rcases ldf_cases h with ⟨-, rfl⟩ | ⟨-, rfl⟩
    · exact ⟨_, answersStatus_refused nofun⟩
    · exact ⟨_, answersStatus_ok rfl⟩
  | build =>
    rcases build_cases h with ⟨-, rfl⟩ | ⟨-, rfl⟩
    · exact ⟨_, answersStatus_refused nofun⟩
    · exact ⟨_, answersStatus_ok rfl⟩
  | rdn sel idx =>
    rcases rdn_cases h with ⟨hrange, rfl⟩ | ⟨-, -, rfl⟩ | ⟨-, -, nd, -, rfl⟩
    · exact ⟨_, answersStatus_refused fun _ hwf => by simp [rdnInRange_eq, hwf] at hrange⟩
    · exact ⟨_, answersStatus_refused nofun⟩
    · exact ⟨_, answersStatus_ok rfl⟩
  | gen =>
    rcases gen_cases h with ⟨-, rfl⟩ | ⟨-, codes, -, rfl⟩
    · exact ⟨_, answersStatus_refused nofun⟩
    · exact ⟨_, answersStatus_ok rfl⟩
  | rdcl c =>
    rcases rdcl_cases h with ⟨-, rfl⟩ | ⟨-, len, -, rfl⟩
    · exact ⟨_, answersStatus_refused nofun⟩
    · exact ⟨_, answersStatus_ok rfl⟩
  | rdcw c w =>
    rcases rdcw_cases h with ⟨-, rfl⟩ | ⟨-, bits, -, rfl⟩
    · exact ⟨_, answersStatus_refused nofun⟩
    · exact ⟨_, answersStatus_ok rfl⟩
  | dstart =>
    rcases dstart_cases h with ⟨-, rfl⟩ | ⟨-, root, -, rfl⟩
    · exact ⟨_, answersStatus_refused nofun⟩
    · exact ⟨_, answersStatus_ok rfl⟩
  | dbit v =>
    rcases dbit_cases h with ⟨-, rfl⟩ | ⟨-, -, rfl⟩ | ⟨-, -, rfl⟩ | ⟨-, b, u, k, -, hstep, rfl⟩ | ⟨-, -, rfl⟩
    · exact ⟨_, answersStatus_refused nofun⟩
    · exact ⟨_, answersStatus_ok rfl⟩
    · exact ⟨_, answersStatus_refused nofun⟩
    · exact ⟨_, answersStatus_ok (stepBit_bitsOnly hstep).1.responses⟩
    · exact ⟨_, answersStatus_corrupt⟩
  | dbyte x =>
    rcases dbyte_cases h with ⟨-, rfl⟩ | ⟨-, -, rfl⟩ | ⟨-, -, u, k, hsteps, rfl⟩
    · exact ⟨_, answersStatus_refused nofun⟩
    · exact ⟨_, answersStatus_refused nofun⟩
    · exact ⟨_, answersStatus_ok (stepBits_bitsOnly hsteps).1.responses⟩
  | dend =>
    rcases dend_cases h with ⟨-, rfl⟩ | ⟨-, -, rfl⟩ | ⟨-, -, rfl⟩ | ⟨-, -, rfl⟩ | ⟨-, -, rfl⟩
    · exact ⟨_, answersStatus_refused nofun⟩
    · exact ⟨_, answersStatus_ok rfl⟩
    · exact ⟨_, answersStatus_refused nofun⟩
    · exact ⟨_, answersStatus_corrupt⟩
    · exact ⟨_, answersStatus_corrupt⟩
  | rds sel =>
    rcases rds_cases h with ⟨hrange, rfl⟩ | ⟨-, rfl⟩
    · exact ⟨_, answersStatus_refused fun _ hwf => by simp [rdsInRange_eq, hwf] at hrange⟩
    · exact ⟨_, answersStatus_ok rfl⟩

end

theorem Status.code_ne_four {st : Status} (h : st ≠ .errRange) : st.code ≠ 4 := by
  cases st with
  | errRange => exact absurd rfl h
  | _ => decide

/-- Settles O46: only RDN and RDS can be ill-formed, and only their range checks answer ERR_RANGE. -/
theorem illFormedOperandsAreOutOfRange : Obligations.IllFormedOperandsAreOutOfRange := by
  refine ⟨fun i s => exec_ill_formed s, not_wellFormed_iff, fun i s t hwf h => ?_⟩
  obtain ⟨st, ⟨u, ne, data, rfl, hu, -⟩, hrange⟩ := exec_answersStatus h
  refine ⟨respWord st ne data, by rw [respond_responses, hu], ?_⟩
  rw [stField_respWord]
  exact Status.code_ne_four fun hst => hrange hst hwf

/-- Settles O50: a status from 1 to 4 is neither OK nor ERR_CORRUPT, and every other answer only adds its response. -/
theorem refusedCommandsChangeNothing : Obligations.RefusedCommandsChangeNothing := by
  intro i s t rw h hresp hlow hhigh
  obtain ⟨st, ⟨u, ne, data, rfl, hu, hst⟩, -⟩ := exec_answersStatus h
  have hrw : respWord st ne data = rw := by simpa [hu] using hresp
  subst hrw
  rw [stField_respWord] at hlow hhigh
  rcases hst with rfl | rfl | rfl
  · exact absurd hlow (by decide)
  · exact absurd hhigh (by decide)
  · exact respond_eq_addResponse ..

end Sys2Proof.Machine

namespace Sys2Proof.Machine

/-! ### The frequency table: one count written, one count read (R110, R111) -/

section
variable (s : State) (c : Symbol)

theorem freqAt_setFreq (v : Count) (d : Symbol) :
    (s.setFreq c v).freqAt d = if d = c then v else s.freqAt d := by
  simp only [State.freqAt, setFreq_freq, Vector.getElem_set, BitVec.toNat_inj, eq_comm (a := c)]

@[simp] theorem freqAt_clearValid : s.clearValid.freqAt c = s.freqAt c := rfl

@[simp] theorem freqAt_respond (st : Status) (ne : Nat) (data : RespData) :
    (respond st ne data s).freqAt c = s.freqAt c := rfl

theorem answer_errBusy : answer .errBusy s = .next (s.addResponse 0x3000000000000000) := rfl

variable {s}

theorem exec_ldf_busy (ha : s.active = true) (count : Count) :
    exec (.ldf c count) s = .next (s.addResponse 0x3000000000000000) := by
  simp only [exec, execLdf, ha, if_true, answer_errBusy]

theorem exec_ldf_idle (ha : s.active = false) (count : Count) :
    exec (.ldf c count) s = .next (respond .ok 0 0 (s.setFreq c count).clearValid) := by
  simp only [exec, execLdf, ha, Bool.false_eq_true, if_false, answer]

end

/-- Settles O11: the activity test is the only branch, and past it FREQ is set at one index, whatever stood there. -/
theorem ldfWritesOneCount : Obligations.LdfWritesOneCount := by
  refine fun c count s => ⟨fun ha => exec_ldf_busy c ha count, fun ha => ⟨_, exec_ldf_idle c ha count, fun d => ?_, rfl⟩⟩
  rw [freqAt_respond, freqAt_clearValid, freqAt_setFreq]

/-- Settles O12: RDF tests nothing, and extending the count to the data field and then to the word is one extension. -/
theorem rdfReturnsTheCount : Obligations.RdfReturnsTheCount := by
  intro c s
  have hword : respWord .ok 0 ((s.freqAt c).setWidth 48) = (s.freqAt c).setWidth 64 := by
    rw [respWord_ok, BitVec.setWidth_setWidth (by decide)]
  rw [exec, execRdf, answerData, respond_eq_addResponse, hword]

end Sys2Proof.Machine

namespace Sys2Proof.Machine

/-! ### The command BUILD (R125, R127, R128) -/

theorem buildForest_eq_buildSteps (freq : Vector Count Config.nLeaf) : buildForest freq = buildSteps freq 255 := by
  unfold buildForest
  rfl

section
variable {s : State}

theorem exec_build_busy (ha : s.active = true) : exec .build s = .next (s.addResponse 0x3000000000000000) := by
  simp only [exec, execBuild, ha, if_true, answer_errBusy]

/-- BUILD installs `buildForest` of FREQ, here under a name: a projection of it by name is not run by the kernel. -/
theorem exec_build_idle (ha : s.active = false) :
    ∃ f, f = buildForest s.freq ∧ exec .build s = .next (respond .ok 0 0 (s.installForest f)) :=
  ⟨_, rfl, by simp only [exec, execBuild, ha, Bool.false_eq_true, if_false, answer]⟩

end

/-- Settles O16: the activity test is the only branch, and past it the forest after 255 steps is installed. -/
theorem buildRunsInitAndAllCombines : Obligations.BuildRunsInitAndAllCombines := by
  refine fun s => ⟨exec_build_busy, fun ha => ?_⟩
  obtain ⟨f, hf, hbuild⟩ := exec_build_idle ha
  rw [hbuild, ← buildForest_eq_buildSteps, ← hf]
  rfl

/-- Settles O19: the forest that BUILD installs is `buildForest` of FREQ. -/
theorem buildDependsOnFreqOnly : Obligations.BuildDependsOnFreqOnly := by
  intro s1 s2 hfreq h1 h2
  obtain ⟨f1, hf1, hbuild1⟩ := exec_build_idle h1
  obtain ⟨f2, hf2, hbuild2⟩ := exec_build_idle h2
  have hf : f1 = f2 := by rw [hf1, hf2, hfreq]
  exact ⟨_, _, hbuild1, hbuild2, congrArg Forest.arena hf, congrArg Forest.inq hf⟩

/-- Settles O17: the built arena is a strict binary tree, where each node is on one path from the root. -/
theorem buildGivesAStrictBinaryTree : Obligations.BuildGivesAStrictBinaryTree := by
  intro s ha
  have t := buildForest_strictTree s.freq
  have hroot := buildForest_rootWeighs s.freq
  obtain ⟨f, hf, hbuild⟩ := exec_build_idle ha
  rw [← hf] at t hroot
  refine ⟨_, hbuild, t, hroot, fun n hn => ?_⟩
  obtain ⟨p, hp⟩ := t.path_exists n hn
  exact ⟨p, hp, fun q hq => t.path_unique hq hp⟩

/-! ### The command RDN (R131) -/

/-- The structure word as a number: each field at its place. -/
theorem structureWord_toNat (nd : Node) : nd.structureWord.toNat =
    nd.leaf.toNat * 2 ^ 26 + nd.sym.toNat * 2 ^ 18 + nd.l.toNat * 2 ^ 9 + nd.r.toNat := by
  have hleaf := nd.leaf.toNat_le
  have hsym := nd.sym.isLt
  have hl := nd.l.isLt
  have hr := nd.r.isLt
  simp only [Node.structureWord, BitVec.toNat_setWidth, toNat_append_add, BitVec.toNat_ofBool]
  omega

theorem nodeData_toNat (sel : BitVec 8) (nd : Node) : (nodeData sel nd).toNat =
    if sel = 0 then nd.leaf.toNat * 2 ^ 26 + nd.sym.toNat * 2 ^ 18 + nd.l.toNat * 2 ^ 9 + nd.r.toNat else nd.w.toNat := by
  unfold nodeData
  split
  · exact structureWord_toNat nd
  · exact BitVec.toNat_setWidth_of_le (by decide)

theorem exec_rdn_node {sel : BitVec 8} {idx : NodeIdx} {s : State} {nd : Node} (hwf : (Instr.rdn sel idx).WellFormed)
    (htv : s.tv = true) (hnd : nodeAt s.arena idx = .ok nd) :
    exec (.rdn sel idx) s = .next (s.addResponse (BitVec.ofNat 64 (nodeData sel nd).toNat)) := by
  have hrange : rdnInRange sel idx = true := (rdnInRange_eq sel idx).trans hwf
  simp only [exec, execRdn, hrange, htv, if_true, hnd, answerData, respond_eq_addResponse, respWord_ok, BitVec.ofNat_toNat]

/-- Settles O21: past the two checks the node exists, for with TV = 1 the arena is a strict binary tree. -/
theorem rdnReturnsTheNode : Obligations.RdnReturnsTheNode := by
  intro sel idx s
  have hwf : sel.toNat ≤ 1 → idx ≠ 511 → (Instr.rdn sel idx).WellFormed := fun hsel hidx => by
    by_contra hc
    rcases (not_wellFormed_iff _).mp hc with ⟨_, _, ⟨⟩, hsel' | hidx'⟩ | ⟨_, ⟨⟩, -⟩
    · omega
    · exact hidx hidx'
  refine ⟨fun hout => ?_, fun hsel hidx htv => ?_, fun hsel hidx htv inv => ?_⟩
  · exact exec_ill_formed s ((not_wellFormed_iff _).mpr (.inl ⟨sel, idx, rfl, hout⟩))
  · exact (missingPrerequisiteIsRefused _ s (hwf hsel hidx)).1 htv (.inr (.inr ⟨sel, idx, rfl⟩))
  · obtain ⟨nd, hnd, -⟩ := (inv.strictTree htv).node_exists (n := idx) (by bv_omega)
    exact ⟨nd, hnd, by rw [exec_rdn_node (hwf hsel hidx) htv hnd, nodeData_toNat]⟩

/-! ### INIT (R122) -/

theorem Built.nodeAt_leaf {freq : Vector Count Config.nLeaf} {f : Forest} {k : Nat} (b : Built freq k f) (c : Symbol) :
    nodeAt f.arena (leafIdx c) = .ok (leafNode c.toNat (freq[c.toNat]'c.isLt)) := by
  rw [nodeAt_ok, leafIdx_toNat]
  exact b.leafNodes c.toNat c.isLt

theorem leafNode_weight (n : Nat) (count : Count) : (leafNode n count).w.toNat = count.toNat :=
  BitVec.toNat_setWidth_of_le (by decide)

/-- Settles O13: the leaves are what holds after no combination step, and INIT writes the queue bits by index. -/
theorem initMakesTheLeaves : Obligations.InitMakesTheLeaves := by
  refine fun freq => ⟨fun c => ?_, fun n hn => ?_⟩
  · rw [(built_steps freq 0 (by omega)).nodeAt_leaf]
    simp only [leafNode, BitVec.ofNat_toNat, BitVec.setWidth_eq]
  · have hn' : n.toNat < 511 := by omega
    simp [buildSteps, initForest, Config.nNode, hn']

end Sys2Proof.Machine

namespace Sys2Proof.Machine

/-! ### Keys and queue entries in the spec's notation (R24, R121) -/

theorem keyLess_iff {wa wb : Weight} {a b : NodeIdx} : KeyLess wa a wb b ↔
    wa.toNat < wb.toNat ∨ (wa.toNat = wb.toNat ∧ a.toNat < b.toNat) := by
  rw [KeyLess, BitVec.toNat_inj]

theorem keyLess_iff_keyLt {wa wb : Weight} {a b : NodeIdx} :
    KeyLess wa a wb b ↔ keyLt ⟨wa, a.toNat⟩ ⟨wb, b.toNat⟩ = true := by
  rw [keyLess_iff, keyLt_iff]

theorem queued_iff {f : Forest} {n : NodeIdx} {w : Weight} : Queued f n w ↔ (⟨w, n.toNat⟩ : QueueEntry) ∈ f.queue := by
  rw [mem_queue, entryAt_iff]
  constructor
  · rintro ⟨hq, nd, hnd, rfl⟩
    exact ⟨nd, hq, nodeAt_ok.mp hnd, rfl⟩
  · rintro ⟨nd, hq, hnd, he⟩
    cases he
    exact ⟨hq, nd, nodeAt_ok.mpr hnd, rfl⟩

theorem nodeAt_setIfInBounds_ne (a : Arena) {i : Nat} {n : NodeIdx} (nd : Option Node) (h : n.toNat ≠ i) :
    nodeAt (a.setIfInBounds i nd) n = nodeAt a n := by
  unfold nodeAt
  rw [Vector.getElem?_setIfInBounds, if_neg (Ne.symm h)]

/-- What COMBINE(k) does from `f` to `f'`: the entries `x` and `y` of the two least keys are joined under node `256 + k`
(R123, R124). -/
structure Combines (f f' : Forest) (k : Nat) (x y : NodeIdx) (wx wy : Weight) : Prop where
  left : Queued f x wx
  right : Queued f y wy
  ordered : KeyLess wx x wy y
  least : ∀ n w, Queued f n w → n ≠ x → n ≠ y → KeyLess wy y w n
  newNode : nodeAt f'.arena (BitVec.ofNat 9 (256 + k)) = .ok { w := wx + wy, l := x, r := y, leaf := false, sym := 0 }
  otherNodes : ∀ n : NodeIdx, n.toNat ≠ 256 + k → nodeAt f'.arena n = nodeAt f.arena n
  inserted : f'.inq[256 + k]? = some (some true)
  leftRemoved : f'.inq[x.toNat]? = some (some false)
  rightRemoved : f'.inq[y.toNat]? = some (some false)
  otherBits : ∀ n : NodeIdx, n.toNat ≠ 256 + k → n ≠ x → n ≠ y → f'.inq[n.toNat]? = f.inq[n.toNat]?

theorem combine_combines {freq : Vector Count Config.nLeaf} {f : Forest} {k : Nat} (hk : k < 255) (b : Built freq k f) :
    ∃ x y wx wy, Combines f (combine f k) k x y wx wy := by
  obtain ⟨⟨wx, x⟩, ⟨wy, y⟩, -, -, hx, hy, hxy, hrest, -, -, -, -, -, hxn, hyn, hne, -, harena, hinq, -, -⟩ :=
    combine_spec hk b
  dsimp only at hx hy hxn hyn hne harena hinq
  have hxl : (BitVec.ofNat 9 x).toNat = x := by simp; omega
  have hyl : (BitVec.ofNat 9 y).toNat = y := by simp; omega
  have hnew : (BitVec.ofNat 9 (256 + k)).toNat = 256 + k := by simp; omega
  have hbit : ∀ n : Nat, (combine f k).inq[n]? = if 256 + k = n then some (some true)
      else if y = n then some (some false) else if x = n then some (some false) else f.inq[n]? := by
    intro n
    have hk' : 256 + k < 511 := by omega
    have hy' : y < 511 := by omega
    have hx' : x < 511 := by omega
    simp only [hinq, Vector.getElem?_setIfInBounds, Config.nNode, hk', hy', hx', if_true]
  refine ⟨BitVec.ofNat 9 x, BitVec.ofNat 9 y, wx, wy, ?_⟩
  constructor
  case left => rw [queued_iff, mem_queue, hxl]; exact hx
  case right => rw [queued_iff, mem_queue, hyl]; exact hy
  case ordered => rw [keyLess_iff_keyLt, hxl, hyl]; exact hxy
  case least =>
    intro n w hn hnx hny
    have hnx' : n.toNat ≠ x := fun h => hnx (by rw [← h, BitVec.ofNat_toNat, BitVec.setWidth_eq])
    have hny' : n.toNat ≠ y := fun h => hny (by rw [← h, BitVec.ofNat_toNat, BitVec.setWidth_eq])
    have hle := hrest _ (queued_iff.mp hn) (fun h => hnx' (congrArg QueueEntry.n h))
    rw [keyLess_iff_keyLt, hyl]
    exact (keyLt_total (Ne.symm hny')).resolve_right (by simp [hle])
  case newNode =>
    rw [nodeAt_ok, hnew, harena, Vector.getElem?_setIfInBounds, if_pos rfl, if_pos (by simp [Config.nNode]; omega)]
    rfl
  case otherNodes => exact fun n hn => by rw [harena, nodeAt_setIfInBounds_ne _ _ hn]
  case inserted => rw [hbit, if_pos rfl]
  case leftRemoved => rw [hbit, hxl, if_neg (by omega), if_neg (by omega), if_pos rfl]
  case rightRemoved => rw [hbit, hyl, if_neg (by omega), if_pos rfl]
  case otherBits =>
    intro n hn hnx hny
    have hnx' : x ≠ n.toNat := fun h => hnx (by rw [h, BitVec.ofNat_toNat, BitVec.setWidth_eq])
    have hny' : y ≠ n.toNat := fun h => hny (by rw [h, BitVec.ofNat_toNat, BitVec.setWidth_eq])
    rw [hbit, if_neg (Ne.symm hn), if_neg hny', if_neg hnx']

/-- Settles O14: `Combines` holds of each step, for both removals find an entry. -/
theorem combineJoinsTheTwoLeastKeys : Obligations.CombineJoinsTheTwoLeastKeys := by
  intro freq k hk
  have b := built_steps freq k (by omega)
  obtain ⟨x, y, wx, wy, c⟩ := combine_combines hk b
  exact ⟨b.size, x, y, wx, wy, c.left, c.right, c.ordered, c.least, c.newNode, c.otherNodes, c.inserted, c.leftRemoved,
    c.rightRemoved, c.otherBits⟩

/-! ### The order in which BUILD combines the nodes -/

/-- Both nodes exist, and `key(n) < key(m)` (R121). -/
def KeyBelow (a : Arena) (n m : NodeIdx) : Prop :=
  ∃ x y, nodeAt a n = .ok x ∧ nodeAt a m = .ok y ∧ KeyLess x.w n y.w m

section
variable {a a' : Arena} {l m n : NodeIdx}

theorem KeyBelow.trans (hlm : KeyBelow a l m) (hmn : KeyBelow a m n) : KeyBelow a l n := by
  obtain ⟨x, y, hx, hy, hxy⟩ := hlm
  obtain ⟨y', z, hy', hz, hyz⟩ := hmn
  rw [hy] at hy'
  cases hy'
  refine ⟨x, z, hx, hz, ?_⟩
  rw [keyLess_iff] at *
  omega

theorem KeyBelow.irrefl : ¬ KeyBelow a n n := by
  rintro ⟨x, y, hx, hy, hxy⟩
  rw [hx] at hy
  cases hy
  rw [keyLess_iff] at hxy
  omega

theorem KeyBelow.asymm (hmn : KeyBelow a m n) : ¬ KeyBelow a n m := fun hnm => KeyBelow.irrefl (hmn.trans hnm)

theorem KeyBelow.extend (hmn : KeyBelow a m n) (keeps : ∀ i nd, nodeAt a i = .ok nd → nodeAt a' i = .ok nd) :
    KeyBelow a' m n := by
  obtain ⟨x, y, hx, hy, hxy⟩ := hmn
  exact ⟨x, y, keeps _ _ hx, keeps _ _ hy, hxy⟩

theorem Queued.keyBelow {f : Forest} {wm wn : Weight} (hm : Queued f m wm) (hn : Queued f n wn)
    (hlt : KeyLess wm m wn n) : KeyBelow f.arena m n := by
  obtain ⟨-, x, hx, rfl⟩ := hm
  obtain ⟨-, y, hy, rfl⟩ := hn
  exact ⟨x, y, hx, hy, hlt⟩

end

section
variable {freq : Vector Count Config.nLeaf} {f f' : Forest} {k : Nat}

/-- A child weighs no more than its parent and has the lower index. -/
theorem Built.keyBelow_parent (b : Built freq k f) {p c : NodeIdx} (h : IsChild f.arena p c) : KeyBelow f.arena c p := by
  obtain ⟨hp, hpk, hlt⟩ := hasChild_index b (isChild_iff.mp h)
  obtain ⟨nd, x, y, hnd, hx, hy, -, -, -, -, -, hw⟩ := b.inner p.toNat hp hpk
  obtain ⟨nd', hnd', -, hc⟩ := h
  rw [nodeAt_ok, hnd] at hnd'
  cases hnd'
  rcases hc with rfl | rfl
  · exact ⟨x, nd, nodeAt_ok.mpr hx, nodeAt_ok.mpr hnd, keyLess_iff.mpr (by omega)⟩
  · exact ⟨y, nd, nodeAt_ok.mpr hy, nodeAt_ok.mpr hnd, keyLess_iff.mpr (by omega)⟩

/-- Nodes are combined in ascending order of their keys: each combined node has a lesser key than every entry of the
queue, and the children of an earlier node lesser keys than those of a later one. -/
structure CombinedInOrder (f : Forest) : Prop where
  beforeQueue : ∀ p n m w, IsChild f.arena p n → Queued f m w → KeyBelow f.arena n m
  byParent : ∀ p q n m, IsChild f.arena p n → IsChild f.arena q m → p.toNat < q.toNat → KeyBelow f.arena n m
  leftFirst : ∀ p nd, nodeAt f.arena p = .ok nd → nd.leaf = false → KeyBelow f.arena nd.l nd.r

section
variable {x y : NodeIdx} {wx wy : Weight} (c : Combines f f' k x y wx wy)
include c

theorem Combines.eq_newNode {p : NodeIdx} (hp : p.toNat = 256 + k) :
    nodeAt f'.arena p = .ok { w := wx + wy, l := x, r := y, leaf := false, sym := 0 } := by
  have : p = BitVec.ofNat 9 (256 + k) := by rw [← hp, BitVec.ofNat_toNat, BitVec.setWidth_eq]
  rw [this, c.newNode]

theorem Combines.isChild_cases {p n : NodeIdx} (h : IsChild f'.arena p n) :
    IsChild f.arena p n ∨ (p.toNat = 256 + k ∧ (n = x ∨ n = y)) := by
  obtain ⟨nd, hnd, hl, hn⟩ := h
  by_cases hp : p.toNat = 256 + k
  · rw [c.eq_newNode hp] at hnd
    cases hnd
    exact .inr ⟨hp, hn.imp Eq.symm Eq.symm⟩
  · exact .inl ⟨nd, c.otherNodes p hp ▸ hnd, hl, hn⟩

theorem Combines.queued_cases {n : NodeIdx} {w : Weight} (h : Queued f' n w) :
    n.toNat = 256 + k ∨ (Queued f n w ∧ n ≠ x ∧ n ≠ y) := by
  obtain ⟨hq, hnd⟩ := h
  by_cases hn : n.toNat = 256 + k
  · exact .inl hn
  · have hx : n ≠ x := by
      rintro rfl
      simp [c.leftRemoved] at hq
    have hy : n ≠ y := by
      rintro rfl
      simp [c.rightRemoved] at hq
    exact .inr ⟨⟨c.otherBits n hn hx hy ▸ hq, c.otherNodes n hn ▸ hnd⟩, hx, hy⟩

theorem Combines.keeps_nodes (hk : k < 255) (b : Built freq k f) (i : NodeIdx) (nd : Node)
    (h : nodeAt f.arena i = .ok nd) : nodeAt f'.arena i = .ok nd := by
  have hi : i.toNat ≠ 256 + k := by
    intro hi
    rw [nodeAt_ok, hi, (b.unwritten (256 + k) (by omega) (by omega)).1] at h
    cases h
  rw [c.otherNodes i hi, h]

theorem Combines.queued_child {n : NodeIdx} (h : n = x ∨ n = y) : ∃ w, Queued f n w := by
  rcases h with rfl | rfl
  · exact ⟨_, c.left⟩
  · exact ⟨_, c.right⟩

theorem Combines.children_keyBelow_rest {n m : NodeIdx} {w : Weight} (hn : n = x ∨ n = y) (hm : Queued f m w) (hx : m ≠ x)
    (hy : m ≠ y) : KeyBelow f.arena n m := by
  have hym := c.right.keyBelow hm (c.least m w hm hx hy)
  rcases hn with rfl | rfl
  · exact (c.left.keyBelow c.right c.ordered).trans hym
  · exact hym

theorem Combines.combinedInOrder (hk : k < 255) (b : Built freq k f) (b' : Built freq (k + 1) f')
    (o : CombinedInOrder f) : CombinedInOrder f' := by
  have keeps := c.keeps_nodes hk b
  have hnew : ∀ {p n : NodeIdx}, p.toNat = 256 + k → n = x ∨ n = y → KeyBelow f'.arena n p := fun {p n} hp hn =>
    b'.keyBelow_parent ⟨_, c.eq_newNode hp, rfl, hn.imp Eq.symm Eq.symm⟩
  constructor
  case beforeQueue =>
    intro p n m w hp hm
    rcases c.isChild_cases hp with hp | ⟨-, hn⟩ <;> rcases c.queued_cases hm with hm | ⟨hm, hmx, hmy⟩
    · exact ((o.beforeQueue p n x wx hp c.left).extend keeps).trans (hnew hm (.inl rfl))
    · exact (o.beforeQueue p n m w hp hm).extend keeps
    · exact hnew hm hn
    · exact (c.children_keyBelow_rest hn hm hmx hmy).extend keeps
  case byParent =>
    intro p q n m hp hq hlt
    have hq' := hasChild_index b' (isChild_iff.mp hq)
    rcases c.isChild_cases hp with hp | ⟨hp, -⟩
    · rcases c.isChild_cases hq with hq | ⟨-, hm⟩
      · exact (o.byParent p q n m hp hq hlt).extend keeps
      · obtain ⟨w, hw⟩ := c.queued_child hm
        exact (o.beforeQueue p n m w hp hw).extend keeps
    · omega
  case leftFirst =>
    intro p nd hnd hl
    by_cases hp : p.toNat = 256 + k
    · rw [c.eq_newNode hp] at hnd
      cases hnd
      exact (c.left.keyBelow c.right c.ordered).extend keeps
    · exact (o.leftFirst p nd (c.otherNodes p hp ▸ hnd) hl).extend keeps

end

theorem combinedInOrder_init : CombinedInOrder (buildSteps freq 0) := by
  have noInner : ∀ p nd, nodeAt (buildSteps freq 0).arena p = .ok nd → nd.leaf ≠ false := by
    intro p nd hnd hl
    have hp := hasChild_index (built_steps freq 0 (by omega)) (p := p.toNat) ⟨nd, nodeAt_ok.mp hnd, hl, .inl rfl⟩
    omega
  have noChild : ∀ p n, ¬ IsChild (buildSteps freq 0).arena p n := fun p n ⟨nd, hnd, hl, _⟩ => noInner p nd hnd hl
  exact ⟨fun p n _ _ hp => absurd hp (noChild p n), fun p _ n _ hp => absurd hp (noChild p n),
    fun p nd hnd hl => absurd hl (noInner p nd hnd)⟩

theorem combinedInOrder_steps (freq : Vector Count Config.nLeaf) : ∀ k ≤ 255, CombinedInOrder (buildSteps freq k)
  | 0, _ => combinedInOrder_init
  | k + 1, hk => by
    obtain ⟨x, y, wx, wy, c⟩ := combine_combines (by omega) (built_steps freq k (by omega))
    exact c.combinedInOrder (by omega) (built_steps freq k (by omega)) (built_steps freq (k + 1) hk)
      (combinedInOrder_steps freq k (by omega))

theorem combinedInOrder_forest (freq : Vector Count Config.nLeaf) : CombinedInOrder (buildForest freq) :=
  buildForest_eq_buildSteps freq ▸ combinedInOrder_steps freq 255 (Nat.le_refl _)

end

end Sys2Proof.Machine

namespace Sys2Proof.Machine

/-! ### Weights and keys in the built tree (R130, R155 law 4) -/

section
variable {a : Arena} {m n : NodeIdx}

theorem nodeAt_index_le {nd : Node} (h : nodeAt a n = .ok nd) : n.toNat ≤ 510 := by
  rw [nodeAt_ok] at h
  by_contra hc
  rw [Vector.getElem?_eq_none (by simp [Config.nNode]; omega)] at h
  cases h

theorem eq_rootIdx_of_toNat (h : n.toNat = 510) : n = Config.root := BitVec.eq_of_toNat_eq h

theorem KeyBelow.weight_le {x y : Node} (h : KeyBelow a n m) (hx : nodeAt a n = .ok x) (hy : nodeAt a m = .ok y) :
    x.w.toNat ≤ y.w.toNat := by
  obtain ⟨x', y', hx', hy', hlt⟩ := h
  rw [hx] at hx'
  rw [hy] at hy'
  cases hx'
  cases hy'
  rw [keyLess_iff] at hlt
  omega

theorem KeyBelow.index_le (h : KeyBelow a n m) : m.toNat ≤ 510 := by
  obtain ⟨-, y, -, hy, -⟩ := h
  exact nodeAt_index_le hy

/-- The last edge of a path. -/
theorem walk_snoc {p : List Bool} {b : Bool} (h : walk a n (p ++ [b]) = some m) :
    ∃ k, walk a n p = some k ∧ IsChild a k m := by
  rw [walk_append] at h
  obtain ⟨k, hk, hkm⟩ := Option.bind_eq_some_iff.mp h
  exact ⟨k, hk, walk_one_isChild hkm⟩

end

section
variable {freq : Vector Count Config.nLeaf}

theorem keyBelow_root (n : NodeIdx) (hn : n.toNat < 510) : KeyBelow (buildForest freq).arena n Config.root := by
  obtain ⟨p, hp, -⟩ := (buildForest_strictTree freq).parents n hn
  have hnp := (built_forest freq).keyBelow_parent hp
  obtain ⟨-, hp510, hlt⟩ := (buildForest_strictTree freq).child_lt hp
  by_cases hroot : p.toNat = 510
  · exact eq_rootIdx_of_toNat hroot ▸ hnp
  · exact hnp.trans (keyBelow_root p (by omega))
termination_by 510 - n.toNat

theorem weight_le_freqSum {n : NodeIdx} {nd : Node} (h : nodeAt (buildForest freq).arena n = .ok nd) :
    nd.w.toNat ≤ freqSum freq := by
  obtain ⟨root, hroot, hw⟩ := buildForest_rootWeighs freq
  have hn := nodeAt_index_le h
  by_cases hlt : n.toNat < 510
  · exact ((keyBelow_root n hlt).weight_le h hroot).trans hw.le
  · rw [eq_rootIdx_of_toNat (n := n) (by omega), hroot] at h
    cases h
    exact hw.le

end

/-- Settles O18: each node weighs at most what the root weighs, the sum of the counts. -/
theorem weightsNeverWrap : Obligations.WeightsNeverWrap := by
  intro freq n nd hnd
  have t := buildForest_strictTree freq
  refine ⟨(weight_le_freqSum hnd).trans (freqSum_lt freq), fun hl => ?_⟩
  have hn : ¬ n.toNat < 256 := by simp [← t.leaf_iff hnd, hl]
  obtain ⟨nd', x, y, hnd', hx, hy, -, -, -, -, -, hw⟩ := t.internals n (by omega) (nodeAt_index_le hnd)
  rw [hnd] at hnd'
  cases hnd'
  exact ⟨x, y, hx, hy, hw⟩

section
variable {freq : Vector Count Config.nLeaf}

/-- Internal nodes are written in ascending order of their keys. -/
theorem inner_keyBelow {m n : NodeIdx} (hm : 256 ≤ m.toNat) (hlt : m.toNat < n.toNat) (hn : n.toNat ≤ 510) :
    KeyBelow (buildForest freq).arena m n := by
  have t := buildForest_strictTree freq
  obtain ⟨u, ul, ur, hu, hul, hur, hu', -, -, -, -, huw⟩ := t.internals m hm (by omega)
  obtain ⟨v, vl, vr, hv, hvl, hvr, hv', -, -, -, -, hvw⟩ := t.internals n (by omega) hn
  have hchildren := (combinedInOrder_forest freq).byParent m n
  have hleft := (hchildren u.l v.l ⟨u, hu, hu', .inl rfl⟩ ⟨v, hv, hv', .inl rfl⟩ hlt).weight_le hul hvl
  have hright := (hchildren u.r v.r ⟨u, hu, hu', .inr rfl⟩ ⟨v, hv, hv', .inr rfl⟩ hlt).weight_le hur hvr
  exact ⟨u, v, hu, hv, keyLess_iff.mpr (by omega)⟩

/-- A node of lesser key is at least as deep: its parent is the same or again of lesser key. -/
theorem path_length_le_of_keyBelow {m n : NodeIdx} {p q : List Bool}
    (hp : walk (buildForest freq).arena Config.root p = some m) (hq : walk (buildForest freq).arena Config.root q = some n)
    (hmn : KeyBelow (buildForest freq).arena m n) : q.length ≤ p.length := by
  have t := buildForest_strictTree freq
  have o := combinedInOrder_forest freq
  induction p using List.reverseRecOn generalizing m n q with
  | nil =>
    cases hp
    have hn := hmn.index_le
    by_cases hlt : n.toNat < 510
    · exact absurd hmn (keyBelow_root n hlt).asymm
    · rw [eq_rootIdx_of_toNat (n := n) (by omega)] at hmn
      exact absurd hmn KeyBelow.irrefl
  | append_singleton p b ih =>
    obtain ⟨i, hi, him⟩ := walk_snoc hp
    rcases List.eq_nil_or_concat' q with rfl | ⟨q, b', rfl⟩
    · simp
    · obtain ⟨j, hj, hjn⟩ := walk_snoc hq
      have hle : q.length ≤ p.length := by
        rcases lt_trichotomy i.toNat j.toNat with hij | hij | hij
        · exact ih hi hj (inner_keyBelow (t.child_lt him).1 hij (t.child_lt hjn).2.1)
        · rw [← BitVec.eq_of_toNat_eq hij] at hj
          rw [t.path_unique hi hj]
        · exact absurd hmn (o.byParent j i n m hjn him hij).asymm
      simpa using hle

end

/-- Settles O28: the leaf of the lesser count has the lesser key, and so it is at least as deep. -/
theorem moreFrequentIsNeverLonger : Obligations.MoreFrequentIsNeverLonger := by
  intro freq c d p q hp hq hlt
  have b := built_forest freq
  exact path_length_le_of_keyBelow hq hp ⟨_, _, b.nodeAt_leaf d, b.nodeAt_leaf c,
    keyLess_iff.mpr (.inl (by rw [leafNode_weight, leafNode_weight]; exact hlt))⟩

end Sys2Proof.Machine

namespace Sys2Proof.Machine

/-! ### The Kraft sum (R155 law 5) -/

section
variable {a : Arena} {n : NodeIdx}

theorem eq_leafIdx (h : n.toNat < 256) : n = leafIdx (BitVec.ofNat 8 n.toNat) := by
  apply BitVec.eq_of_toNat_eq
  rw [leafIdx_toNat, BitVec.toNat_ofNat]
  omega

/-- A path to an internal node goes on along either edge to a lower node, and is shorter than the longest code (R159). -/
theorem StrictTree.walk_extends (t : StrictTree a) {p : List Bool} (hp : walk a Config.root p = some n)
    (hn : 256 ≤ n.toNat) : p.length < 255 ∧ ∀ b, ∃ m, m.toNat < n.toNat ∧ walk a Config.root (p ++ [b]) = some m := by
  have hfall := (t.walk_length hp).1
  rw [root_toNat] at hfall
  refine ⟨by omega, fun b => ?_⟩
  obtain ⟨nd, hnd, hinner⟩ := t.node_exists (n := n) (by omega)
  obtain ⟨-, -, hchild⟩ := t.child_node hnd (hinner hn) b
  exact ⟨_, (t.child_lt (walk_one_isChild hchild)).2.2, by rw [walk_append, hp, Option.bind_some, hchild]⟩

/-- A code that goes through an internal node goes on to one of its children. -/
theorem code_through_iff {p q : List Bool} {c : Symbol} (hp : walk a Config.root p = some n) (hn : 256 ≤ n.toNat)
    (hq : IsCode a c q) : p <+: q ↔ p ++ [false] <+: q ∨ p ++ [true] <+: q := by
  constructor
  · rintro ⟨r, rfl⟩
    cases r with
    | nil =>
      rw [IsCode, List.append_nil, hp] at hq
      have := congrArg BitVec.toNat (Option.some.inj hq)
      rw [leafIdx_toNat] at this
      have := c.isLt
      omega
    | cons b bs =>
      cases b
      · exact .inl ⟨bs, by simp⟩
      · exact .inr ⟨bs, by simp⟩
  · rintro (h | h) <;> exact (List.prefix_append ..).trans h

/-- No path goes on below a leaf, so the one code through it is that of its own Symbol (R155 law 3). -/
theorem code_through_leaf_iff {p q : List Bool} {c d : Symbol} (t : StrictTree a) (hp : IsCode a c p) (hq : IsCode a d q) :
    p <+: q ↔ d = c := by
  constructor
  · rintro ⟨r, rfl⟩
    rw [IsCode, walk_append, hp, Option.bind_some] at hq
    cases r with
    | nil => exact (leafIdx_inj (Option.some.inj hq)).symm
    | cons b bs =>
      obtain ⟨nd, hnd, hl, -⟩ := t.leaves c
      exact absurd hq (walk_leaf hnd hl)
  · rintro rfl
    rw [t.path_unique hp hq]

theorem not_through_both {p q : List Bool} (hfalse : p ++ [false] <+: q) : ¬ p ++ [true] <+: q := fun htrue => by
  have := List.prefix_of_prefix_length_le hfalse htrue (by simp)
  simp [List.prefix_append_right_inj] at this

open Finset in
/-- The codes that go on from the end of a path fill exactly the share of that path. -/
theorem StrictTree.kraft_below (t : StrictTree a) {code : Fin 256 → List Bool}
    (hcode : ∀ c, IsCode a (BitVec.ofFin c) (code c)) (n : NodeIdx) (p : List Bool)
    (hp : walk a Config.root p = some n) : ∑ c with p <+: code c, 2 ^ (255 - (code c).length) = 2 ^ (255 - p.length) := by
  by_cases hn : n.toNat < 256
  · have hpc : IsCode a (BitVec.ofNat 8 n.toNat) p := hp.trans (congrArg some (eq_leafIdx hn))
    have hself : code (BitVec.ofNat 8 n.toNat).toFin = p := t.path_unique (hcode _) hpc
    have honly : (univ.filter fun c => p <+: code c) = {(BitVec.ofNat 8 n.toNat).toFin} := by
      ext c
      rw [mem_filter_univ, mem_singleton, code_through_leaf_iff t hpc (hcode c)]
      exact ⟨fun h => congrArg BitVec.toFin h, fun h => congrArg BitVec.ofFin h⟩
    rw [honly, sum_singleton, hself]
  · obtain ⟨hlen, hwalk⟩ := t.walk_extends hp (by omega)
    obtain ⟨l, hl, hpl⟩ := hwalk false
    obtain ⟨r, hr, hpr⟩ := hwalk true
    have hdisj : Disjoint (univ.filter fun c => p ++ [false] <+: code c) (univ.filter fun c => p ++ [true] <+: code c) :=
      disjoint_filter.mpr fun _ _ => not_through_both
    calc ∑ c with p <+: code c, 2 ^ (255 - (code c).length)
      _ = ∑ c with p ++ [false] <+: code c, 2 ^ (255 - (code c).length) +
            ∑ c with p ++ [true] <+: code c, 2 ^ (255 - (code c).length) := by
        rw [← sum_union hdisj, ← filter_or]
        exact congrArg (Finset.sum · _) (filter_congr fun c _ => code_through_iff hp (by omega) (hcode c))
      _ = 2 ^ (255 - (p.length + 1)) + 2 ^ (255 - (p.length + 1)) := by
        rw [t.kraft_below hcode l _ hpl, t.kraft_below hcode r _ hpr, List.length_append, List.length_append]
        rfl
      _ = 2 ^ (255 - p.length) := by
        rw [← Nat.two_mul, ← pow_succ']
        congr 1
        omega
termination_by n.toNat

end

/-- Settles O27: every code goes on from the empty path, whose share is the whole. -/
theorem kraftSumIsOne : Obligations.KraftSumIsOne := by
  intro a len t h
  choose code hcode hlen using h
  have hsum := t.kraft_below (fun c => hcode (BitVec.ofFin c)) Config.root [] rfl
  simp only [List.nil_prefix, Finset.filter_true, hlen, List.length_nil] at hsum
  rw [← Fin.sum_univ_def]
  exact hsum

end Sys2Proof.Machine

namespace Sys2Proof.Machine

/-! ### Equal counts (R129): the keys are in the order of the indices, so the nodes are combined in that order -/

section
variable {freq : Vector Count Config.nLeaf} {v : Count} (same : ∀ c : Symbol, freq[c.toNat]'c.isLt = v) {m n : NodeIdx}
include same

theorem equal_leaf_weight (hn : n.toNat < 256) : ∃ nd, nodeAt (buildForest freq).arena n = .ok nd ∧
    nd.w.toNat = v.toNat := by
  rw [eq_leafIdx hn]
  exact ⟨_, (built_forest freq).nodeAt_leaf _, by rw [leafNode_weight, same]⟩

theorem equal_weight_ge (n : NodeIdx) (hn : n.toNat ≤ 510) : ∃ nd, nodeAt (buildForest freq).arena n = .ok nd ∧
    v.toNat ≤ nd.w.toNat := by
  by_cases hleaf : n.toNat < 256
  · obtain ⟨nd, hnd, hw⟩ := equal_leaf_weight same hleaf
    exact ⟨nd, hnd, hw.ge⟩
  · obtain ⟨nd, x, _, hnd, hx, -, -, -, -, hlt, -, hw⟩ := (buildForest_strictTree freq).internals n (by omega) hn
    obtain ⟨x', hx', hv⟩ := equal_weight_ge nd.l (by omega)
    rw [hx] at hx'
    cases hx'
    exact ⟨nd, hnd, by omega⟩
termination_by n.toNat

theorem equal_keyBelow (hlt : m.toNat < n.toNat) (hn : n.toNat ≤ 510) : KeyBelow (buildForest freq).arena m n := by
  by_cases hm : m.toNat < 256
  · obtain ⟨x, hx, hxw⟩ := equal_leaf_weight same hm
    obtain ⟨y, hy, hyw⟩ := equal_weight_ge same n hn
    exact ⟨x, y, hx, hy, keyLess_iff.mpr (by omega)⟩
  · exact inner_keyBelow (by omega) hlt hn

theorem equal_lt_of_keyBelow (h : KeyBelow (buildForest freq).arena m n) : m.toNat < n.toNat := by
  obtain ⟨x, _, hx, -⟩ := id h
  have hm := nodeAt_index_le hx
  by_contra hc
  rcases Nat.lt_or_eq_of_le (Nat.le_of_not_lt hc) with hlt | heq
  · exact h.asymm (equal_keyBelow same hlt hm)
  · rw [BitVec.eq_of_toNat_eq heq] at h
    exact h.irrefl

/-- Where the nodes before `p` join the pairs of their numbers, `p` joins its own: an earlier parent of that pair has its two
children already, and were the parent a later node, then the children of `p` would be lesser and have an earlier parent. -/
theorem equal_isChild_of_earlier {p c : NodeIdx} (hp : p.toNat ≤ 510) (hc : 256 + c.toNat / 2 = p.toNat)
    (earlier : ∀ q d : NodeIdx, q.toNat < p.toNat → (IsChild (buildForest freq).arena q d ↔ 256 + d.toNat / 2 = q.toNat)) :
    IsChild (buildForest freq).arena p c := by
  have t := buildForest_strictTree freq
  have o := combinedInOrder_forest freq
  obtain ⟨q, hq, -⟩ := t.parents c (by omega)
  rcases lt_trichotomy q.toNat p.toNat with hlt | heq | hgt
  · have := (earlier q c hlt).mp hq
    omega
  · exact BitVec.eq_of_toNat_eq heq ▸ hq
  · obtain ⟨nd, _, _, hnd, -, -, hl, -⟩ := t.internals p (by omega) hp
    have hleft : IsChild (buildForest freq).arena p nd.l := ⟨nd, hnd, hl, .inl rfl⟩
    have hlr := equal_lt_of_keyBelow same (o.leftFirst p nd hnd hl)
    have hrc := equal_lt_of_keyBelow same (o.byParent p q nd.r c ⟨nd, hnd, hl, .inr rfl⟩ hq hgt)
    have hi : (BitVec.ofNat 9 (256 + nd.l.toNat / 2)).toNat = 256 + nd.l.toNat / 2 := by simp; omega
    have hleft' := (earlier (BitVec.ofNat 9 (256 + nd.l.toNat / 2)) nd.l (by omega)).mpr hi.symm
    obtain ⟨_, -, huniq⟩ := t.parents nd.l (by omega)
    have := congrArg BitVec.toNat ((huniq _ hleft).trans (huniq _ hleft').symm)
    omega

/-- The children of node `256 + k` are nodes `2k` and `2k + 1`. -/
theorem equal_isChild_iff (p c : NodeIdx) (hp : p.toNat ≤ 510) :
    IsChild (buildForest freq).arena p c ↔ 256 + c.toNat / 2 = p.toNat := by
  have earlier : ∀ q d : NodeIdx, q.toNat < p.toNat →
      (IsChild (buildForest freq).arena q d ↔ 256 + d.toNat / 2 = q.toNat) := fun q d hq =>
    equal_isChild_iff q d (by omega)
  have hpair := fun d hd => equal_isChild_of_earlier same (p := p) (c := d) hp hd earlier
  refine ⟨fun h => ?_, hpair c⟩
  have hp256 := ((buildForest_strictTree freq).child_lt h).1
  have heven : (BitVec.ofNat 9 (2 * (p.toNat - 256))).toNat = 2 * (p.toNat - 256) := by simp; omega
  have hodd : (BitVec.ofNat 9 (2 * (p.toNat - 256) + 1)).toNat = 2 * (p.toNat - 256) + 1 := by simp; omega
  obtain ⟨nd, hnd, -, hc⟩ := h
  obtain ⟨nd', hnd', -, h0⟩ := hpair (BitVec.ofNat 9 (2 * (p.toNat - 256))) (by omega)
  obtain ⟨nd'', hnd'', -, h1⟩ := hpair (BitVec.ofNat 9 (2 * (p.toNat - 256) + 1)) (by omega)
  rw [hnd] at hnd' hnd''
  cases hnd'
  cases hnd''
  simp only [← BitVec.toNat_inj] at hc h0 h1
  omega
termination_by p.toNat

theorem equal_node (hn : 256 ≤ n.toNat) (hn' : n.toNat ≤ 510) : ∃ nd, nodeAt (buildForest freq).arena n = .ok nd ∧
    nd.leaf = false ∧ nd.sym = 0 ∧ nd.l.toNat = 2 * (n.toNat - 256) ∧ nd.r.toNat = 2 * (n.toNat - 256) + 1 := by
  obtain ⟨nd, _, _, hnd, -, -, hl, hsym, -⟩ := (buildForest_strictTree freq).internals n hn hn'
  have hlr := equal_lt_of_keyBelow same ((combinedInOrder_forest freq).leftFirst n nd hnd hl)
  have hleft := (equal_isChild_iff same n nd.l hn').mp ⟨nd, hnd, hl, .inl rfl⟩
  have hright := (equal_isChild_iff same n nd.r hn').mp ⟨nd, hnd, hl, .inr rfl⟩
  exact ⟨nd, hnd, hl, hsym, by omega, by omega⟩

theorem equal_walk_one (b : Bool) (hn : 256 ≤ n.toNat) (hn' : n.toNat ≤ 510)
    (hm : m.toNat = 2 * (n.toNat - 256) + b.toNat) : walk (buildForest freq).arena n [b] = some m := by
  obtain ⟨nd, hnd, hl, -, hleft, hright⟩ := equal_node same hn hn'
  refine walk_one.mpr ⟨nd, hnd, hl, BitVec.eq_of_toNat_eq ?_⟩
  cases b
  · simp [hm, hleft]
  · simp [hm, hright]

end

/-! In the complete tree the level of depth `i` ends at node `511 - 2 ^ i` and has `2 ^ i` nodes. -/

/-- The node at depth `i` whose place in its level is the number that the first `i` bits of the Symbol's numeral spell. -/
def numeralNode (c : Symbol) (i : Nat) : Nat := 512 - 2 ^ (i + 1) + c.toNat / 2 ^ (8 - i)

section
variable (c : Symbol) {i : Nat}

theorem numeralNode_bounds (hi : i ≤ 7) : 256 ≤ numeralNode c i ∧ numeralNode c i ≤ 510 := by
  have hc := c.isLt
  have hplace : c.toNat / 2 ^ (8 - i) < 2 ^ i := by
    rw [Nat.div_lt_iff_lt_mul (by positivity), ← pow_add, show i + (8 - i) = 8 by omega]
    exact hc
  have hpow : 2 ^ i ≤ 2 ^ 7 := Nat.pow_le_pow_right (by decide) hi
  rw [numeralNode, pow_succ]
  generalize c.toNat / 2 ^ (8 - i) = place at hplace ⊢
  omega

theorem numeralNode_succ (hi : i ≤ 7) :
    numeralNode c (i + 1) = 2 * (numeralNode c i - 256) + (c.getLsbD (7 - i)).toNat := by
  have hbit : (c.getLsbD (7 - i)).toNat = c.toNat / 2 ^ (7 - i) % 2 := Nat.toNat_testBit ..
  have hhalf : c.toNat / 2 ^ (8 - i) = c.toNat / 2 ^ (7 - i) / 2 := by
    rw [Nat.div_div_eq_div_mul, ← pow_succ, show 7 - i + 1 = 8 - i by omega]
  have hpow : 2 ^ i ≤ 2 ^ 7 := Nat.pow_le_pow_right (by decide) hi
  rw [hbit, numeralNode, numeralNode, hhalf, show 8 - (i + 1) = 7 - i by omega, pow_succ, pow_succ]
  generalize c.toNat / 2 ^ (7 - i) = place
  omega

end

/-- The first bits of a Symbol's numeral lead to their node. -/
theorem equal_walk_numeral {freq : Vector Count Config.nLeaf} {v : Count} (same : ∀ c : Symbol, freq[c.toNat]'c.isLt = v)
    (c : Symbol) : ∀ i ≤ 8, walk (buildForest freq).arena Config.root ((List.range i).map fun j => c.getLsbD (7 - j)) =
      some (BitVec.ofNat 9 (numeralNode c i))
  | 0, _ => by
    rw [numeralNode, Nat.div_eq_of_lt c.isLt]
    rfl
  | i + 1, hi => by
    rw [List.range_succ, List.map_append, walk_append, equal_walk_numeral same c i (by omega), Option.bind_some]
    obtain ⟨hlow, hhigh⟩ := numeralNode_bounds c (i := i) (by omega)
    have hsucc := numeralNode_succ c (i := i) (by omega)
    have hbit := (c.getLsbD (7 - i)).toNat_le
    have hnode : (BitVec.ofNat 9 (numeralNode c i)).toNat = numeralNode c i := by simp; omega
    have hnext : (BitVec.ofNat 9 (numeralNode c (i + 1))).toNat = numeralNode c (i + 1) := by simp; omega
    exact equal_walk_one same _ (by omega) (by omega) (by rw [hnext, hnode, hsucc])

/-- Settles O20: where the counts are equal, each node's children follow from its index, and so does the path to a leaf. -/
theorem equalCountsGiveTheCompleteTree : Obligations.EqualCountsGiveTheCompleteTree := by
  intro v
  have same : ∀ c : Symbol, (Vector.replicate Config.nLeaf v)[c.toNat]'c.isLt = v := fun c => Vector.getElem_replicate _
  refine ⟨fun k hk => ?_, fun c => ?_⟩
  · have hn : (BitVec.ofNat 9 (256 + k)).toNat = 256 + k := by simp; omega
    obtain ⟨⟨w, l, r, leaf, sym⟩, hnd, hleaf, hsym, hl, hr⟩ :=
      equal_node same (n := BitVec.ofNat 9 (256 + k)) (by omega) (by omega)
    dsimp only at hleaf hsym hl hr
    have hl' : l = BitVec.ofNat 9 (2 * k) := BitVec.eq_of_toNat_eq (by simp; omega)
    have hr' : r = BitVec.ofNat 9 (2 * k + 1) := BitVec.eq_of_toNat_eq (by simp; omega)
    exact ⟨w, by rw [hnd, hleaf, hsym, hl', hr']⟩
  · rw [IsCode, equal_walk_numeral same c 8 (Nat.le_refl 8)]
    simp [numeralNode, leafIdx, BitVec.ofNat_toNat]

end Sys2Proof.Machine

/-! Proofs of the code table family (42_code_table_generator.md): the codes of a strict binary tree, the table that GEN
writes of them, and the two commands that read it. -/

namespace Sys2Proof.Machine

/-! ### The codes of a strict binary tree (R150, R155, R159) -/

/-- Settles O25: the path to the Symbol's leaf, which no other path reaches and which falls in index with every edge. -/
theorem everySymbolHasOneCode : Obligations.EverySymbolHasOneCode := fun _ t c => t.code_exists c

/-- Settles O26: a code through a Symbol's leaf is that Symbol's own. -/
theorem codesArePrefixFree : Obligations.CodesArePrefixFree := fun _ t _ _ _ _ hne hp hq hprefix =>
  hne ((code_through_leaf_iff t hp hq).mp hprefix).symm

/-! ### The command GEN (R153, R154) -/

/-- Settles O22: the refusal is that for want of TV, and with TV = 1 the visit lists each Symbol with its one code. -/
theorem genWritesEveryCode : Obligations.GenWritesEveryCode := by
  refine fun s => ⟨fun htv => (missingPrerequisiteIsRefused .gen s rfl).1 htv (.inl rfl), fun htv t => ?_⟩
  obtain ⟨codes, hgen, htable⟩ := t.execGen_spec htv
  exact ⟨respond .ok 0 0 (s.installCodes codes), hgen, htable, rfl⟩

/-! ### The commands RDCL and RDCW (R157, R158) -/

section
variable {s : State} {c : Symbol}

/-- A table entry extended to the data field is that entry extended to the word. -/
theorem respWord_ok_setWidth {k : Nat} (hk : k ≤ 48) (x : BitVec k) :
    respWord .ok 0 (x.setWidth 48) = x.setWidth 64 := by
  rw [respWord_ok, BitVec.setWidth_setWidth (by omega)]

theorem exec_rdcl_held {len : CodeLen} (hcv : s.cv = true) (hlen : s.clenAt c = .ok len) :
    exec (.rdcl c) s = .next (s.addResponse (len.setWidth 64)) := by
  simp only [exec, execRdcl, hcv, if_true, hlen, answerData, respond_eq_addResponse, respWord_ok_setWidth (k := 8) (by decide)]

theorem exec_rdcw_held {bits : CodeBits} {w : BitVec 3} (hcv : s.cv = true) (hbits : s.cbitsAt c = .ok bits) :
    exec (.rdcw c w) s = .next (s.addResponse ((codeSlice bits w).setWidth 64)) := by
  simp only [exec, execRdcw, hcv, if_true, hbits, answerData, respond_eq_addResponse,
    respWord_ok_setWidth (k := 32) (by decide)]

/-- Counted from its top, slice `w` begins `32w` bits below the top of the code bits. -/
theorem codeSlice_getLsbD (bits : CodeBits) (w : BitVec 3) {j : Nat} (hj : j < 32) :
    (codeSlice bits w).getLsbD (31 - j) = bits.getLsbD (255 - (32 * w.toNat + j)) := by
  have hw := w.isLt
  have hplace : 224 - 32 * w.toNat + (31 - j) = 255 - (32 * w.toNat + j) := by omega
  simp [codeSlice, hplace, show 31 - j < 32 by omega]

end

/-- Settles O23: CV is the one test, and the entry that the table holds is the code's length as a number. -/
theorem rdclReturnsTheLength : Obligations.RdclReturnsTheLength := by
  refine fun c s => ⟨fun hcv => (missingPrerequisiteIsRefused (.rdcl c) s rfl).2.1 hcv (.inl ⟨c, rfl⟩), fun p hcv h => ?_⟩
  obtain ⟨len, _, hlen, -, hlength, -⟩ := h
  rw [exec_rdcl_held hcv hlen, ← hlength, BitVec.ofNat_toNat]

/-- Settles O24: path bit `i` stands in bit `255 - i` of CBITS, so the slice holds it where the data shows it, and the
extension to the word adds zeros. -/
theorem rdcwReturnsThePathBits : Obligations.RdcwReturnsThePathBits := by
  refine fun c w s =>
    ⟨fun hcv => (missingPrerequisiteIsRefused (.rdcw c w) s rfl).2.1 hcv (.inr ⟨c, w, rfl⟩), fun p hcv h => ?_⟩
  obtain ⟨_, bits, -, hbits, -, hpath⟩ := h
  refine ⟨_, exec_rdcw_held hcv hbits, fun j hj => ?_, fun j hj => ?_⟩
  · have hw := w.isLt
    rw [BitVec.getLsbD_setWidth, codeSlice_getLsbD bits w hj, hpath _ (by omega)]
    simp [show 31 - j < 64 by omega]
  · rw [BitVec.getLsbD_setWidth, BitVec.getLsbD_of_ge _ _ hj, Bool.and_false]

end Sys2Proof.Machine

/-! Proofs of the decoder family (43_decoder.md): how DSTART and the body commands are answered in each decoder state, a run
of body commands as one run of bits, and the decoding of an encoded body. -/

namespace Sys2Proof.Machine

/-! ### Arming the decoder (R171, R172) -/

theorem answer_ok (s : State) : answer .ok s = .next (s.addResponse 0) := rfl
theorem answer_errCorrupt (s : State) : answer .errCorrupt s = .next (s.addResponse 0x5000000000000000) := rfl

/-- With TV = 1 the decoder is armed for as many Symbols as the root weighs. -/
theorem exec_dstart_armed {s : State} {root : Node} (htv : s.tv = true) (hroot : nodeAt s.arena Config.root = .ok root) :
    exec .dstart s = .next (respond .ok 0 0 (armDecoder root.w s)) := by
  simp only [exec, execDstart, htv, if_true, hroot, answer]

/-- Settles O29: TV = 0 is the refusal for want of a flag, and with TV = 1 DSTART looks at nothing but the root. -/
theorem dstartArmsTheDecoder : Obligations.DstartArmsTheDecoder := fun s =>
  ⟨fun htv => (missingPrerequisiteIsRefused .dstart s rfl).1 htv (.inr (.inl rfl)), fun _ htv hroot =>
    exec_dstart_armed htv hroot⟩

/-! ### One bit in an active decode (R173, R175) -/

/-- STEP in an active decode moves to the child that the bit selects, answered with the number of Symbols emitted there. -/
theorem exec_dbit_arrive {b : Bool} {s : State} {here nd : Node} {n : NodeIdx} (ha : s.active = true)
    (hhere : nodeAt s.arena s.cur = .ok here) (hinner : here.leaf = false) (hn : n = if b then here.r else here.l)
    (hnd : nodeAt s.arena n = .ok nd) :
    exec (.dbit (if b then 1 else 0)) s = .next (respond .ok (if nd.leaf then 1 else 0) 0 (arrive n nd s)) := by
  have hstep : stepBit b s = .ok (arrive n nd s, if nd.leaf then 1 else 0) := by
    subst hn
    simp only [stepBit, hhere, hinner, Bool.false_eq_true, if_false, hnd]
  rw [exec_dbit_active ha, hstep, answerBits]

/-- Settles O30: the node arrived at is an internal node, and counts no Symbol, or a leaf, and counts one. -/
theorem dbitTakesOneEdge : Obligations.DbitTakesOneEdge := by
  intro b s here nd n ha hhere hinner hn hnd
  refine ⟨fun hl => ?_, fun hl => ?_⟩
  · rw [exec_dbit_arrive ha hhere hinner hn hnd, hl, arrive_inner s n hl]
    rfl
  · rw [exec_dbit_arrive ha hhere hinner hn hnd, hl, arrive_leaf s n hl]
    rfl

theorem bitValue_eq_none {v : BitVec 8} (h : 1 < v.toNat) : bitValue v = none := by
  have h0 : v ≠ 0 := by bv_omega
  have h1 : v ≠ 1 := by bv_omega
  rw [bitValue, if_neg h0, if_neg h1]

/-- While active, a code point that is no bit is the CORRUPT entry (R175). -/
theorem exec_dbit_invalid {s : State} {v : BitVec 8} (ha : s.active = true) (hv : bitValue v = none) :
    exec (.dbit v) s = .next (raiseCorrupt .invalidBit s) := by
  obtain ⟨hden, hd | hd⟩ := (active_iff s).mp ha <;> simp only [exec, execDbit, hden, hd, hv, if_true]

/-- Settles O32: an operand above 1 is no bit. -/
theorem invalidBitEntersCorrupt : Obligations.InvalidBitEntersCorrupt := fun _ _ ha hv =>
  exec_dbit_invalid ha (bitValue_eq_none hv)

/-! ### The body commands in DONE and in CORRUPT (R177, R178, R179) -/

section
variable {i : Instr} {s t : State}

theorem exec_body_done (hi : presentsBody i) (hden : s.den = true) (hd : s.dstate = .done) :
    exec i s = .next (s.addResponse 0) := by
  cases i with
  | dbit v => simp only [exec, execDbit, hden, hd, if_true, answer_ok]
  | dbyte x =>
    simp only [exec, execDbyte, hden, hd, if_true, reduceCtorEq, if_false, stepBits_done hd]
    rfl
  | dend => simp only [exec, execDend, hden, hd, if_true, answer_ok]
  | _ => exact hi.elim

theorem exec_body_corrupt (hi : presentsBody i) (hden : s.den = true) (hd : s.dstate = .corrupt) :
    exec i s = .next (s.addResponse 0x5000000000000000) := by
  cases i with
  | dbit v => simp only [exec, execDbit, hden, hd, if_true, answer_errCorrupt]
  | dbyte x => simp only [exec, execDbyte, hden, hd, if_true, answer_errCorrupt]
  | dend => simp only [exec, execDend, hden, hd, if_true, answer_errCorrupt]
  | _ => exact hi.elim

theorem exec_dend_atInternal (hden : s.den = true) (hd : s.dstate = .atInternal) :
    exec .dend s = .next (raiseCorrupt .truncMidCode s) := by
  simp only [exec, execDend, hden, hd, if_true]

theorem exec_dend_atRoot (hden : s.den = true) (hd : s.dstate = .atRoot) :
    exec .dend s = .next (raiseCorrupt .truncAtRoot s) := by
  simp only [exec, execDend, hden, hd, if_true]

end

/-- Settles O34: the end states answer DEND as every body command, and each active state has its own cause. -/
theorem dendEndsTheStream : Obligations.DendEndsTheStream := fun s =>
  ⟨fun hden => (missingPrerequisiteIsRefused .dend s rfl).2.2 hden trivial, exec_body_done trivial,
    exec_body_corrupt trivial, exec_dend_atInternal, exec_dend_atRoot⟩

/-- What a command that has no business with the decoder leaves of it as it was (R20). -/
structure DecoderKept (s t : State) : Prop where
  den : t.den = s.den
  dstate : t.dstate = s.dstate
  cause : t.cause = s.cause
  cur : t.cur = s.cur
  bitpos : t.bitpos = s.bitpos
  ecnt : t.ecnt = s.ecnt
  total : t.total = s.total

section
variable {i : Instr} {s t : State}

/-- Only DSTART with TV = 1, CLR and the body commands touch the decoder. -/
theorem exec_decoderKept (h : exec i s = .next t) :
    DecoderKept s t ∨ (i = .dstart ∧ s.tv = true) ∨ i = .clr ∨ presentsBody i := by
  rcases exec_cases h with ⟨st, data, rfl, -⟩ | ⟨rfl, -⟩ | ⟨c, count, -, -, rfl⟩ | ⟨-, -, hbuild⟩ |
    ⟨-, codes, -, -, rfl⟩ | ⟨rfl, root, htv, -, -⟩ | ⟨v, rfl⟩ | ⟨x, rfl⟩ | rfl
  · exact .inl ⟨rfl, rfl, rfl, rfl, rfl, rfl, rfl⟩
  · exact .inr (.inr (.inl rfl))
  · exact .inl ⟨rfl, rfl, rfl, rfl, rfl, rfl, rfl⟩
  · obtain ⟨-, -, -, hden, htotal, hdstate, hcur, hbitpos, hecnt, hcause⟩ := build_frame hbuild
    exact .inl ⟨hden, hdstate, hcause, hcur, hbitpos, hecnt, htotal⟩
  · exact .inl ⟨rfl, rfl, rfl, rfl, rfl, rfl, rfl⟩
  · exact .inr (.inl ⟨rfl, htv⟩)
  · exact .inr (.inr (.inr trivial))
  · exact .inr (.inr (.inr trivial))
  · exact .inr (.inr (.inr trivial))

/-- A step in a state where every body command is answered `rw` and changes nothing keeps the decoder, or takes one of the
ways out (R217). -/
theorem step_decoderKept {rw : RespWord}
    (hbody : ∀ c rest, presentsBody c → exec c { s with inputs := rest } =
      .next (State.addResponse { s with inputs := rest } rw)) (h : step s = .next t) :
    DecoderKept s t ∨ (NextCommandIs s .dstart ∧ s.tv = true) ∨ NextCommandIs s .clr ∨ NextIsReset s := by
  rcases step_cases h with ⟨-, rfl⟩ | ⟨i, rest, hin, ⟨rfl, -⟩ | ⟨cw, rfl, ⟨e, -, rfl⟩ | ⟨c, hdec, hexec⟩⟩⟩
  · exact .inl ⟨rfl, rfl, rfl, rfl, rfl, rfl, rfl⟩
  · exact .inr (.inr (.inr ⟨rest, hin⟩))
  · exact .inl ⟨rfl, rfl, rfl, rfl, rfl, rfl, rfl⟩
  · have hnext : NextCommandIs s c := ⟨cw, rest, hin, hdec⟩
    rcases exec_decoderKept hexec with ⟨hden, hdstate, hcause, hcur, hbitpos, hecnt, htotal⟩ | ⟨rfl, htv⟩ | rfl | hc
    · exact .inl ⟨hden, hdstate, hcause, hcur, hbitpos, hecnt, htotal⟩
    · exact .inr (.inl ⟨hnext, htv⟩)
    · exact .inr (.inr (.inl hnext))
    · cases (hbody c rest hc).symm.trans hexec
      exact .inl ⟨rfl, rfl, rfl, rfl, rfl, rfl, rfl⟩

end

/-- Settles O35: in DONE a body command only adds its response, so a step keeps DONE or takes a way out. -/
theorem doneIgnoresTheBody : Obligations.DoneIgnoresTheBody := by
  refine ⟨fun i s => exec_body_done, fun s t hden hd h => ?_⟩
  rcases step_decoderKept (fun c rest hc => exec_body_done hc hden hd) h with k | ⟨hstart, -⟩ | hclr | hreset
  · exact .inl ⟨k.den.trans hden, k.dstate.trans hd⟩
  · exact .inr (.inl hstart)
  · exact .inr (.inr (.inl hclr))
  · exact .inr (.inr (.inr hreset))

/-- Settles O36: in CORRUPT a body command only adds its response, so a step keeps the record or takes a way out. -/
theorem corruptRefusesTheBody : Obligations.CorruptRefusesTheBody := by
  refine ⟨fun i s => exec_body_corrupt, fun s t hden hd h => ?_⟩
  rcases step_decoderKept (fun c rest hc => exec_body_corrupt hc hden hd) h with k | hout
  · exact .inl ⟨k.den.trans hden, k.dstate.trans hd, k.cause, k.cur, k.bitpos, k.ecnt, k.total⟩
  · exact .inr hout

/-! ### Body commands as runs of bits (R174, R176) -/

section
variable {s u : State} {k : Nat}

theorem bitValue_eq_some {v : BitVec 8} {b : Bool} (h : bitValue v = some b) : v = if b then 1 else 0 := by
  unfold bitValue at h
  split at h
  · next hv => cases h; exact hv
  · split at h <;> cases h
    next hv => exact hv

theorem active_of_enabled (hden : s.den = true) (hcorrupt : s.dstate ≠ .corrupt) (hdone : s.dstate ≠ .done) :
    s.active = true :=
  (active_iff s).mpr ⟨hden, by cases hd : s.dstate <;> simp_all⟩

/-- A command that presents bits is answered once for the run of them. -/
theorem exec_presents {i : Instr} {bs : List Bool} (hi : presentedBits i = some bs) (hden : s.den = true)
    (hd : s.dstate ≠ .corrupt) (h : stepBits bs s = .ok (u, k)) : exec i s = .next (respond .ok k 0 u) := by
  cases i with
  | dbit v =>
    obtain ⟨b, hv, rfl⟩ := Option.map_eq_some_iff.mp hi
    rw [bitValue_eq_some hv]
    rcases stepBits_cons_cases h with ⟨hdone, hrest⟩ | ⟨hdone, s1, k1, k2, hstep, hrest, rfl⟩
    · cases hrest
      exact exec_body_done trivial hden hdone
    · cases hrest
      rw [exec_dbit_active (active_of_enabled hden hd hdone), hstep]
      rfl
  | dbyte x =>
    cases hi
    simp only [exec, execDbyte, hden, if_true, if_neg hd, h, answerBits]
  | _ => cases hi

theorem arrive_addResponse (rw : RespWord) (n : NodeIdx) (nd : Node) :
    arrive n nd (s.addResponse rw) = (arrive n nd s).addResponse rw := by
  cases hl : nd.leaf
  · rw [arrive_inner _ n hl, arrive_inner _ n hl]; rfl
  · rw [arrive_leaf _ n hl, arrive_leaf _ n hl]; rfl

theorem stepBit_addResponse {b : Bool} (rw : RespWord) (h : stepBit b s = .ok (u, k)) :
    stepBit b (s.addResponse rw) = .ok (u.addResponse rw, k) := by
  obtain ⟨here, nd, n, hhere, hinner, rfl, hnd, rfl, rfl⟩ := stepBit_cases h
  simp [stepBit, hhere, hinner, hnd, arrive_addResponse]

/-- A run of bits does not look at the responses. -/
theorem stepBits_addResponse {bs : List Bool} (rw : RespWord) (h : stepBits bs s = .ok (u, k)) :
    stepBits bs (s.addResponse rw) = .ok (u.addResponse rw, k) := by
  induction bs generalizing s k with
  | nil => cases h; rfl
  | cons b bs ih =>
    rcases stepBits_cons_cases h with ⟨hdone, hrest⟩ | ⟨hdone, s1, k1, k2, hstep, hrest, rfl⟩
    · simp [stepBits, hdone, ih hrest]
    · simp [stepBits, hdone, stepBit_addResponse rw hstep, ih hrest]

/-- Valid bits never lead to CORRUPT (R176). -/
theorem stepBits_ne_corrupt {bs : List Bool} (hd : s.dstate ≠ .corrupt) (h : stepBits bs s = .ok (u, k)) :
    u.dstate ≠ .corrupt := by
  induction bs generalizing s k with
  | nil => cases h; exact hd
  | cons b bs ih =>
    rcases stepBits_cons_cases h with ⟨-, hrest⟩ | ⟨-, s1, k1, k2, hstep, hrest, -⟩
    · exact ih hd hrest
    · obtain ⟨-, nd, n, -, -, -, -, rfl, -⟩ := stepBit_cases hstep
      exact ih (arrive_dstate_ne_corrupt s n nd) hrest

theorem stepBits_append_cases {p q : List Bool} (h : stepBits (p ++ q) s = .ok (u, k)) :
    ∃ s1 k1 k2, stepBits p s = .ok (s1, k1) ∧ stepBits q s1 = .ok (u, k2) ∧ k = k1 + k2 := by
  rw [stepBits_append] at h
  split at h
  · cases h
  · next s1 k1 hp =>
    split at h <;> cases h
    next k2 hq => exact ⟨s1, k1, k2, hp, hq, rfl⟩

theorem bodyBits_cons_cases {i : Instr} {is : List Instr} {bits : List Bool} (h : bodyBits (i :: is) = some bits) :
    ∃ b bs, presentedBits i = some b ∧ bodyBits is = some bs ∧ bits = b ++ bs := by
  rw [bodyBits] at h
  split at h <;> cases h
  next b bs hb hbs => exact ⟨b, bs, hb, hbs, rfl⟩

/-- Commands that present the bits of a run, however they are cut into commands, leave what the run leaves, and each is
answered OK (R176). -/
theorem execAll_presents {cmds : List Instr} {bits : List Bool} (hbits : bodyBits cmds = some bits) (hden : s.den = true)
    (hd : s.dstate ≠ .corrupt) (h : stepBits bits s = .ok (u, k)) :
    ∃ rws, execAll cmds s = .next { u with responses := s.responses ++ rws } ∧ ∀ rw ∈ rws, stField rw = 0 := by
  induction cmds generalizing s u k bits with
  | nil =>
    cases hbits
    cases h
    exact ⟨[], by simp [execAll], by simp⟩
  | cons i is ih =>
    obtain ⟨b, bs, hi, his, rfl⟩ := bodyBits_cons_cases hbits
    obtain ⟨s1, k1, k2, hfirst, hrest, -⟩ := stepBits_append_cases h
    have hframe := (stepBits_bitsOnly hfirst).1
    have hexec := exec_presents hi hden hd hfirst
    have hlive : s1.dstate ≠ .corrupt := stepBits_ne_corrupt hd hfirst
    obtain ⟨rws, hall, hok⟩ := ih (s := respond .ok k1 0 s1) his (hframe.den.trans hden) hlive
      (stepBits_addResponse (respWord .ok k1 0) hrest)
    refine ⟨respWord .ok k1 0 :: rws, ?_, ?_⟩
    · simp only [execAll, hexec, hall, respond_responses, hframe.responses, List.append_assoc]
      rfl
    · simpa [Status.code] using hok

end

theorem bodyBits_map_dbit (bs : List Bool) : bodyBits (bs.map fun b => .dbit (if b then 1 else 0)) = some bs := by
  induction bs with
  | nil => rfl
  | cons b bs ih =>
    simp only [List.map_cons, bodyBits, presentedBits, bitValue_bit, Option.map_some, ih, List.singleton_append]

/-- Settles O33: DBYTE and the eight DBITs present the same run of bits. -/
theorem dbyteIsEightDbits : Obligations.DbyteIsEightDbits := by
  refine fun x s => ⟨fun hden => (missingPrerequisiteIsRefused (.dbyte x) s rfl).2.2 hden trivial,
    exec_body_corrupt trivial, fun inv hden hd => ?_⟩
  obtain ⟨⟨v, k⟩, hrun⟩ := inv.stepBits_answers hden hd (byteBits x)
  obtain ⟨hframe, hk⟩ := stepBits_bitsOnly hrun
  obtain ⟨syms, hout, hlen⟩ := hframe.out
  have hdbits : bodyBits ((List.range 8).map fun j => .dbit (if x.getLsbD (7 - j) then 1 else 0)) = some (byteBits x) :=
    bodyBits_map_dbit (byteBits x)
  obtain ⟨rws, hall, -⟩ := execAll_presents hdbits hden hd hrun
  have hlive : v.dstate ≠ .corrupt := stepBits_ne_corrupt hd hrun
  refine ⟨_, _, k, exec_presents rfl hden hd hrun, hall, ?_, hk, ?_, hlive⟩
  · simp only [respond, hframe.responses]
  · simp [hout, hlen]

/-! ### The body of a sequence (R63, R182) -/

/-- A code has at most 255 bits. -/
theorem IsBody.length_le {a : Arena} {cs : List Symbol} {body : List Bool} (hbody : IsBody a cs body)
    (t : StrictTree a) : body.length ≤ 255 * cs.length := by
  induction hbody with
  | nil => simp
  | @cons c p cs bs hcode _ ih =>
    obtain ⟨q, -, -, hle, huniq⟩ := t.code_exists c
    rw [huniq p hcode]
    simp only [List.length_append, List.length_cons]
    omega

/-- The counts of a sequence sum to its length. -/
theorem freqSum_of_countsOf {freq : Vector Count Config.nLeaf} {cs : List Symbol} (h : CountsOf freq cs) :
    freqSum freq = cs.length := by
  have hcount (n : Fin 256) : freq[n].toNat = (cs.map BitVec.toFin : Multiset (Fin 256)).count n := by
    have hn : n = (BitVec.ofFin n : Symbol).toFin := rfl
    rw [Multiset.coe_count, hn, List.count_map_of_injective cs _ (fun _ _ => BitVec.eq_of_toFin_eq)]
    exact h (BitVec.ofFin n)
  calc freqSum freq
      = ∑ n : Fin 256, (cs.map BitVec.toFin : Multiset (Fin 256)).count n := by
        rw [freqSum, Fin.sum_univ_def]
        exact congrArg List.sum (List.map_congr_left fun n _ => hcount n)
    _ = cs.length := by
        rw [Multiset.sum_count_eq_card fun n _ => Finset.mem_univ n, Multiset.coe_card, List.length_map]

/-- The decoder is at the root with `n` Symbols to go, in DONE if that is none. -/
structure AtRootOwing (s : State) (n : Nat) : Prop where
  cur : s.cur = Config.root
  total : s.total.toNat = s.ecnt.toNat + n
  dstate : s.dstate = if s.ecnt = s.total then .done else .atRoot

theorem atRootOwing_armDecoder (s : State) (total : SymCount) : AtRootOwing (armDecoder total s) total.toNat where
  cur := rfl
  total := by simp
  dstate := if_congr eq_comm rfl rfl

section
variable {s : State} {n : Nat}

theorem AtRootOwing.done (h : AtRootOwing s 0) : s.dstate = .done := by
  rw [h.dstate, if_pos (BitVec.eq_of_toNat_eq h.total.symm)]

theorem AtRootOwing.not_done (h : AtRootOwing s (n + 1)) : s.dstate ≠ .done := by
  have hne : s.ecnt ≠ s.total := fun heq => by have := h.total; rw [heq] at this; omega
  simp [h.dstate, hne]

theorem atRootOwing_afterCode (h : AtRootOwing s (n + 1)) (c : Symbol) (k : Nat) : AtRootOwing (afterCode c k s) n where
  cur := rfl
  total := by
    have htotal := h.total
    have hlt := s.total.isLt
    have hroom : s.ecnt.toNat + 1 < 2 ^ 40 := by omega
    have hecnt : (s.ecnt + 1).toNat = s.ecnt.toNat + 1 := BitVec.toNat_add_of_lt hroom
    change s.total.toNat = (s.ecnt + 1).toNat + n
    omega
  dstate := rfl

/-- The body of `cs`, presented at the root with as many Symbols to go, emits exactly `cs` and ends in DONE (R181, R182). -/
theorem StrictTree.stepBits_body {cs : List Symbol} {body : List Bool} (t : StrictTree s.arena)
    (hbody : IsBody s.arena cs body) (hs : AtRootOwing s cs.length) :
    ∃ u k, stepBits body s = .ok (u, k) ∧ u.dstate = .done ∧ u.out = s.out ++ cs ∧
      u.bitpos = s.bitpos + BitVec.ofNat 48 body.length := by
  generalize ha : s.arena = a at hbody t
  induction hbody generalizing s with
  | nil => exact ⟨s, 0, rfl, hs.done, by simp, by simp⟩
  | @cons c p cs bs hcode _ ih =>
    subst ha
    have hfirst : stepBits p s = .ok (afterCode c p.length s, 1) :=
      t.stepBits_code (by simp [hs.cur]) hs.not_done (by rw [hs.cur]; exact hcode)
    obtain ⟨u, k, hrest, hdone, hout, hbitpos⟩ :=
      ih (s := afterCode c p.length s) (atRootOwing_afterCode hs c p.length) rfl
    refine ⟨u, 1 + k, ?_, hdone, ?_, ?_⟩
    · rw [stepBits_append, hfirst]
      simp only [hrest]
    · simp [hout, afterCode]
    · rw [hbitpos, List.length_append, BitVec.ofNat_add, ← BitVec.add_assoc]
      rfl

end

/-- Settles O37: DSTART takes the sum of the counts, the length of `cs`, for TOTAL, the body then leads through the codes of
`cs` into DONE, and what follows it is skipped there. -/
theorem decodeOfEncodedBodyIsTheInput : Obligations.DecodeOfEncodedBodyIsTheInput := by
  intro s cs body pad cmds inv htv hcounts hbody hcmds
  have tree := inv.strictTree htv
  have hroot : RootWeighs s.arena cs.length := by
    rw [(inv.treeOfFreq htv).1, ← freqSum_of_countsOf hcounts]
    exact buildForest_rootWeighs s.freq
  obtain ⟨root, hnode, hw⟩ := hroot
  have hstart := exec_dstart_armed htv hnode
  have hlen : body.length < 2 ^ 48 := by
    have := hbody.length_le tree
    have := root.w.isLt
    omega
  obtain ⟨u, k, hrun, hdone, hout, hbitpos⟩ := StrictTree.stepBits_body (s := armDecoder root.w s) tree hbody
    (hw ▸ atRootOwing_armDecoder s root.w)
  have hfull : stepBits (body ++ pad) (armDecoder root.w s) = .ok (u, k) := by
    rw [stepBits_append, hrun]
    simp only [stepBits_done hdone, Nat.add_zero]
  have hlive : (armDecoder root.w s).dstate ≠ .corrupt := by rw [armDecoder_dstate]; split <;> simp
  obtain ⟨rws, hall, hok⟩ := execAll_presents (s := respond .ok 0 0 (armDecoder root.w s)) hcmds rfl hlive
    (stepBits_addResponse _ hfull)
  refine ⟨_, _, respWord .ok 0 0 :: rws, hstart, hall, hout, (stepBits_bitsOnly hrun).1.den, hdone, ?_, ?_, ?_⟩
  · simpa [hbitpos] using hlen
  · simp
  · simpa [Status.code] using hok

end Sys2Proof.Machine

/-! Proofs of the control family (44_control.md): NOP and CLR, which test nothing before they answer. -/

namespace Sys2Proof.Machine

/-! ### The commands without a refusal (R200, R201) -/

section
variable (s : State)

theorem exec_nop : exec .nop s = .next (s.addResponse 0) := answer_ok s

theorem exec_clr : exec .clr s = .next ((blockReset s).addResponse 0) := answer_ok (blockReset s)

@[simp] theorem freqAt_blockReset (c : Symbol) : (blockReset s).freqAt c = 0 := Vector.getElem_replicate _

end

/-- Settles O40: NOP tests nothing, and the response word of OK with data 0 and ne 0 is 0. -/
theorem nopDoesNothing : Obligations.NopDoesNothing := exec_nop

/-- Settles O41: CLR tests nothing, and each field of the block's reset state is the value that R42 gives. -/
theorem clrResetsTheBlock : Obligations.ClrResetsTheBlock := by
  refine fun s => ⟨_, exec_clr s, freqAt_blockReset s, rfl, rfl, rfl, rfl, rfl, rfl, rfl, rfl, rfl, fun n hn => ?_,
    fun n hn => ?_, rfl, rfl⟩
  · simp [hn]
  · simp [hn]

end Sys2Proof.Machine

/-! Proofs of the hazards family (70_reset_and_hazards.md): what an active decode locks, and what it still accepts. -/

namespace Sys2Proof.Machine

/-! ### The lock on the tree and FREQ (R247) -/

section
variable {i : Instr} {s t : State}

/-- In an active decode the writers of FREQ, the arena and the queue leave only their refusal. -/
theorem exec_writer_refused (ha : s.active = true) (h : exec i s = .next t)
    (hi : i = .build ∨ ∃ c count, i = .ldf c count) : t = s.addResponse 0x3000000000000000 := by
  rcases hi with rfl | ⟨c, count, rfl⟩
  · rw [exec_build_busy ha] at h
    cases h
    rfl
  · rw [exec_ldf_busy c ha count] at h
    cases h
    rfl

/-- No command but CLR writes the tree or FREQ in an active decode: their listed writers are refused. -/
theorem active_keeps_tree_freq (ha : s.active = true) (h : exec i s = .next t) (hclr : i ≠ .clr) :
    t.arena = s.arena ∧ t.inq = s.inq ∧ t.freq = s.freq := by
  by_cases hi : i = .build ∨ ∃ c count, i = .ldf c count
  · rw [exec_writer_refused ha h hi]
    exact ⟨rfl, rfl, rfl⟩
  · obtain ⟨hfreq, htree, -⟩ := onlyTheListedCommandsWrite i s t h hclr
    exact ⟨by_contra fun hne => hi (.inl (htree (.inl hne))), by_contra fun hne => hi (.inl (htree (.inr hne))),
      by_contra fun hne => hi (.inr (hfreq hne))⟩

/-! ### The commands accepted beside a decode (R247)

Their only refusals are for want of TV, of CV or of an operand in range, so with all three in hand each answers OK. -/

/-- `t` has answered with status OK what `s` was given. -/
def AnsweredOk (s t : State) : Prop := ∃ rw, t.responses = s.responses ++ [rw] ∧ stField rw = 0

theorem answeredOk_respond {u : State} {ne : Nat} {data : RespData} (hu : u.responses = s.responses) :
    AnsweredOk s (respond .ok ne data u) :=
  ⟨respWord .ok ne data, by rw [respond_responses, hu], stField_respWord ..⟩

/-- A well-formed read is answered OK where the valid flags that it tests are set. -/
theorem read_answeredOk (hread : isRead i) (hwf : i.WellFormed) (htv : s.tv = true)
    (hcv : s.cv = true ∨ ((∀ c, i ≠ .rdcl c) ∧ ∀ c w, i ≠ .rdcw c w)) (h : exec i s = .next t) : AnsweredOk s t := by
  cases i with
  | rdf c => cases h; exact answeredOk_respond rfl
  | rdn sel idx =>
    rcases rdn_cases h with ⟨hrange, -⟩ | ⟨-, htv', -⟩ | ⟨-, -, nd, -, rfl⟩
    · simp [rdnInRange_eq, hwf] at hrange
    · simp [htv] at htv'
    · exact answeredOk_respond rfl
  | rdcl c =>
    rcases rdcl_cases h with ⟨hcv', -⟩ | ⟨-, len, -, rfl⟩
    · simp [hcv'] at hcv
    · exact answeredOk_respond rfl
  | rdcw c w =>
    rcases rdcw_cases h with ⟨hcv', -⟩ | ⟨-, bits, -, rfl⟩
    · simp [hcv'] at hcv
    · exact answeredOk_respond rfl
  | rds sel =>
    rcases rds_cases h with ⟨hrange, -⟩ | ⟨-, rfl⟩
    · simp [rdsInRange_eq, hwf] at hrange
    · exact answeredOk_respond rfl
  | _ => exact hread.elim

theorem accepted_answeredOk (hwf : i.WellFormed) (htv : s.tv = true)
    (hi : i = .dstart ∨ i = .gen ∨ i = .nop ∨ i = .clr ∨ isRead i)
    (hcv : s.cv = true ∨ ((∀ c, i ≠ .rdcl c) ∧ ∀ c w, i ≠ .rdcw c w)) (h : exec i s = .next t) : AnsweredOk s t := by
  rcases hi with rfl | rfl | rfl | rfl | hread
  · rcases dstart_cases h with ⟨htv', -⟩ | ⟨-, root, -, rfl⟩
    · simp [htv] at htv'
    · exact answeredOk_respond rfl
  · rcases gen_cases h with ⟨htv', -⟩ | ⟨-, codes, -, rfl⟩
    · simp [htv] at htv'
    · exact answeredOk_respond rfl
  · cases h; exact answeredOk_respond rfl
  · cases h; exact answeredOk_respond rfl
  · exact read_answeredOk hread hwf htv hcv h

/-! ### A decode that is active beside a code table -/

@[simp] theorem freqAt_installForest (f : Forest) (c : Symbol) : (s.installForest f).freqAt c = s.freqAt c := rfl

theorem freqAt_le_freqSum (s : State) (c : Symbol) : (s.freqAt c).toNat ≤ freqSum s.freq :=
  List.le_sum_of_mem (List.mem_map_of_mem (f := fun i : Fin 256 => s.freq[i].toNat) (List.mem_finRange c.toFin))

/-- DSTART on the tree of a table with a count in it begins an active decode. -/
theorem exec_dstart_active {c : Symbol} (inv : Inv s) (htv : s.tv = true) (hc : 0 < (s.freqAt c).toNat) :
    ∃ t, exec .dstart s = .next t ∧ Inv t ∧ t.active = true := by
  obtain ⟨root, hroot, hw⟩ : RootWeighs s.arena (freqSum s.freq) := by
    rw [(inv.treeOfFreq htv).1]
    exact buildForest_rootWeighs s.freq
  have h := exec_dstart_armed htv hroot
  have hne : root.w ≠ 0 := by
    have := freqAt_le_freqSum s c
    bv_omega
  exact ⟨_, h, inv_exec inv h, (armDecoder_active s root.w).mpr hne⟩

/-- GEN beside a decode leaves it active, with the code table for RDCL and RDCW to read. -/
theorem exec_gen_active (inv : Inv s) (ha : s.active = true) :
    ∃ t, exec .gen s = .next t ∧ Inv t ∧ t.active = true ∧ t.cv = true := by
  have htv := inv.activeNeedsTree ha
  obtain ⟨t, h⟩ := exec_answers inv .gen
  refine ⟨t, h, inv_exec inv h, ?_⟩
  rcases gen_cases h with ⟨htv', -⟩ | ⟨-, codes, -, rfl⟩
  · simp [htv] at htv'
  · exact ⟨ha, rfl⟩

/-- Four commands lead from any idle state to an active decode beside a code table, the premise of R247 for RDCL and RDCW. -/
theorem execAll_active_with_codes (inv : Inv s) (ha : s.active = false) (c : Symbol) {count : Count}
    (hcount : 0 < count.toNat) :
    ∃ t, execAll [.ldf c count, .build, .dstart, .gen] s = .next t ∧ Inv t ∧ t.active = true ∧ t.cv = true := by
  have hldf := exec_ldf_idle c ha count
  have inv_ldf := inv_exec inv hldf
  obtain ⟨f, -, hbuild⟩ := exec_build_idle (s := respond .ok 0 0 (s.setFreq c count).clearValid) ha
  have inv_build := inv_exec inv_ldf hbuild
  obtain ⟨u, hdstart, inv_dstart, hactive⟩ := exec_dstart_active (c := c) inv_build rfl (by
    rwa [freqAt_respond, freqAt_installForest, freqAt_respond, freqAt_clearValid, freqAt_setFreq, if_pos rfl])
  obtain ⟨t, hgen, ht⟩ := exec_gen_active inv_dstart hactive
  exact ⟨t, by simp only [execAll, hldf, hbuild, hdstart, hgen], ht⟩

end

/-- A state for RDCL and RDCW in the second clause of ActiveDecodeLocksTheTree, reached from reset. -/
theorem witness_active_codes : ∃ t, Inv t ∧ t.active = true ∧ t.cv = true :=
  (execAll_active_with_codes inv_reset rfl 65 (count := 5) (by decide)).imp fun _ h => h.2

/-- Settles O48: an active decode has its tree, so the invariants leave the accepted commands no ground to refuse or stop;
the writers of the tree and FREQ are the refused ones. -/
theorem activeDecodeLocksTheTree : Obligations.ActiveDecodeLocksTheTree := by
  refine ⟨fun c count s ha => ⟨exec_ldf_busy c ha count, exec_build_busy ha⟩, fun i s inv ha hwf hi hcv => ?_,
    fun i s t ha h => or_iff_not_imp_right.mpr (active_keeps_tree_freq ha h)⟩
  obtain ⟨t, h⟩ := exec_answers inv i
  obtain ⟨rw, hrw⟩ := accepted_answeredOk hwf (inv.activeNeedsTree ha) hi hcv h
  exact ⟨t, rw, h, hrw⟩

end Sys2Proof.Machine
